-- ==== Sys2Proof/Word.lean ====
section
/-! DEFINITION. The word types of the VACBO Core 2025: 00_scope.md rules R7 and R10. -/

namespace Sys2Proof

/-- A 32-bit vector: a general register, the pc, an address, an instruction word (rules R7, R10). -/
abbrev Word := BitVec 32

/-- One byte of memory (00_scope.md rule R16). -/
abbrev Byte := BitVec 8

/-- The number of a general register, 0 to 31 (10_state.md rule R20). -/
abbrev RegIdx := Fin 32

end Sys2Proof
end

