-- ==== Sys2Proof/Config.lean ====
section
/-! DEFINITION. The parameters of 00_scope.md rule R8, one field for each of its rows (`Admit` takes one list for each
kind of access): what a launch fixes and no step changes. They are plain data, so that a statement about every state is a
statement for every value of every parameter. -/

namespace Sys2Proof

/-- The kind of a memory access (20_memory.md rule R42). -/
inductive AccessKind where
  | fetch
  | load
  | store
  deriving DecidableEq, Repr

/-- The width of a data access (20_memory.md rule R51). -/
inductive AccessWidth where
  | byte
  | half
  | word
  deriving DecidableEq, Repr

/-- `BYTE_ORDER`: which end of a value lies at the lowest address (20_memory.md rule R44). -/
inductive ByteOrder where
  | little
  | big
  deriving DecidableEq, Repr

/-- `MISALIGNED_DATA`: a misaligned load or store faults, or is performed byte by byte (20_memory.md rule R46). -/
inductive MisalignedData where
  | fault
  | split
  deriving DecidableEq, Repr

/-- `MISALIGNED_TARGET`: what a control transfer to a misaligned target does (20_memory.md rule R47); rule R8 gives the one
value "fault". -/
inductive MisalignedTarget where
  | fault
  deriving DecidableEq, Repr

/-- `ILLEGAL`: what a step whose word is none of the 45 instructions does (30_encoding.md rule R86); rule R8 gives the one
value "fault". -/
inductive IllegalWord where
  | fault
  deriving DecidableEq, Repr

/-- `DIV_CORNERS`: the results the source does not state (41_arithmetic.md rule R119). `standard` is the default
column of the rule's table; `free` leaves each of them uninterpreted, as decision D9 allows. -/
inductive DivCorners where
  | standard
  | free
  deriving DecidableEq, Repr

/-- `div_by_zero` of rule R119 under `DivCorners.free`: nothing constrains it (log 10). -/
opaque Config.freeDivByZero : Word → Word

/-- `divu_by_zero` of rule R119 under `DivCorners.free`: nothing constrains it (log 10). -/
opaque Config.freeDivuByZero : Word → Word

/-- `rem_by_zero` of rule R119 under `DivCorners.free`: nothing constrains it (log 10). -/
opaque Config.freeRemByZero : Word → Word

/-- `remu_by_zero` of rule R119 under `DivCorners.free`: nothing constrains it (log 10). -/
opaque Config.freeRemuByZero : Word → Word

/-- `div_overflow` of rule R119 under `DivCorners.free`: nothing constrains it (log 10). -/
opaque Config.freeDivOverflow : Word

/-- `rem_overflow` of rule R119 under `DivCorners.free`: nothing constrains it (log 10). -/
opaque Config.freeRemOverflow : Word

/-- The addresses `base`, …, `base + size - 1`. -/
structure Region where
  base : Nat
  size : Nat
  deriving DecidableEq, Repr

/-- Consecutive instruction words of a program, the first of them at `base` (70_reset_and_hazards.md rule R243). -/
structure ProgramPart where
  base : Word
  words : List Word
  deriving DecidableEq, Repr

/-- The addresses of a part of a program. -/
def ProgramPart.region (p : ProgramPart) : Region := ⟨p.base.toNat, 4 * p.words.length⟩

/-- The configuration of a launch (00_scope.md rule R8, 70_reset_and_hazards.md rule R243). `fetchable`, `loadable` and
`storable` say which addresses exist for each kind of access; `Admit` itself is `admits` of Machine/Ops.lean,
which adds what rules R58 and R243 say of `TEXT`. `jalOpcode`, `bltFunct3` and `bgeuFunct3` are where the spec corrects a
misprint of its source (90_conflicts.md C2 to C4). -/
structure Config where
  /-- `PCLEN`: the width of the pc; `Word` fixes it at the row's 32, and `Config.wellFormed` asks for that (log 20). -/
  pcLen : Nat
  /-- `ALEN`: the width of an address (20_memory.md rule R40); fixed at the row's 32 in the same way (log 20). -/
  aLen : Nat
  /-- `X0_ZERO` (10_state.md rule R22). -/
  x0Zero : Bool
  /-- `BYTE_ORDER` (20_memory.md rule R44). -/
  byteOrder : ByteOrder
  /-- `MISALIGNED_DATA` (20_memory.md rule R46). -/
  misalignedData : MisalignedData
  /-- `MISALIGNED_TARGET` (20_memory.md rule R47). -/
  misalignedTarget : MisalignedTarget
  /-- `ILLEGAL` (30_encoding.md rule R86). -/
  illegal : IllegalWord
  /-- `DIV_CORNERS` (41_arithmetic.md rule R119). -/
  divCorners : DivCorners
  /-- `RESET_PC` (70_reset_and_hazards.md rule R240). -/
  resetPc : Word
  /-- `HALT_PC` (70_reset_and_hazards.md rule R244). -/
  haltPc : Word
  /-- `TEXT` (20_memory.md rule R58). -/
  text : List Region
  /-- The addresses that exist for fetches, beside those of `TEXT` (20_memory.md rule R42). -/
  fetchable : List Region
  /-- The addresses that exist for loads (20_memory.md rule R42). -/
  loadable : List Region
  /-- The addresses that exist for stores, those that exist for fetches taken out (20_memory.md rules R42, R58). -/
  storable : List Region
  /-- `JAL_OPCODE` (30_encoding.md rule R81). -/
  jalOpcode : BitVec 7
  /-- `BLT_FUNCT3` (30_encoding.md rule R85). -/
  bltFunct3 : BitVec 3
  /-- `BGEU_FUNCT3` (30_encoding.md rule R85). -/
  bgeuFunct3 : BitVec 3
  deriving DecidableEq, Repr

/-- All 2^32 addresses (20_memory.md rule R40). -/
def Region.everything : Region := ⟨0, 4294967296⟩

/-- The configuration of `State.reset`: the values of rule R8 where it has them (logs 7 to 11). DESIGN CHOICE
(logs 2 and 5), unsafe, for its OPEN rows: `RESET_PC = 0x00001000`, `HALT_PC = 0xFFFFFFFC`, an empty `TEXT`, loads and
stores admitted everywhere and fetches in `TEXT` only. -/
def Config.initial : Config :=
  { pcLen := 32
    aLen := 32
    x0Zero := true
    byteOrder := .little
    misalignedData := .fault
    misalignedTarget := .fault
    illegal := .fault
    divCorners := .standard
    resetPc := 0x00001000#32
    haltPc := 0xFFFFFFFC#32
    text := []
    fetchable := []
    loadable := [Region.everything]
    storable := [Region.everything]
    jalOpcode := 0b1101111#7
    bltFunct3 := 0b100#3
    bgeuFunct3 := 0b111#3 }

/-- The eight opcodes of 30_encoding.md rule R80 that are no parameter: LOAD, OP-IMM, AUIPC, STORE, OP, LUI, BRANCH,
JALR. -/
def fixedOpcodes : List (BitVec 7) :=
  [0b0000011#7, 0b0010011#7, 0b0010111#7, 0b0100011#7, 0b0110011#7, 0b0110111#7, 0b1100011#7, 0b1100111#7]

/-- The four funct3 values of BRANCH that are no parameter (30_encoding.md rule R85): BEQ, BNE, BGE, BLTU. -/
def fixedBranchFunct3 : List (BitVec 3) := [0b000#3, 0b001#3, 0b101#3, 0b110#3]

/-- No two instructions share a word: `JAL_OPCODE` is an opcode of the shape `XXXXX11` beside the other eight, and
`BLT_FUNCT3` and `BGEU_FUNCT3` are two values beside the other four (30_encoding.md rules R80, R81, R85). -/
def Config.encodingFree (c : Config) : Bool :=
  c.jalOpcode.extractLsb' 0 2 == 0b11#2 && !fixedOpcodes.contains c.jalOpcode &&
  !fixedBranchFunct3.contains c.bltFunct3 && !fixedBranchFunct3.contains c.bgeuFunct3 && c.bltFunct3 != c.bgeuFunct3

/-- What the spec asks of a configuration: the widths are 32 (00_scope.md rule R8), `RESET_PC` and `HALT_PC` are multiples
of 4 (70_reset_and_hazards.md rules R240, R244), and no two instructions share a word. -/
def Config.wellFormed (c : Config) : Bool :=
  c.pcLen == 32 && c.aLen == 32 && c.resetPc.extractLsb' 0 2 == 0#2 && c.haltPc.extractLsb' 0 2 == 0#2 && c.encodingFree

end Sys2Proof
end

