-- ==== Sys2Proof/Syntax.lean ====
section
/-! DEFINITION. The 45 instructions of 00_scope.md rule R5, one constructor per row of the opcode table.
Register operands are register numbers; an immediate is kept as the bits the encoding holds (with the forced bit 0
of the B and J offsets), and is extended where it is used (Machine/Operands.lean). -/

namespace Sys2Proof

/-- One instruction with its operands. `imm` is the 12-bit immediate of the I and S formats (30_encoding.md rules R74,
R75) or the 20 bits of the U format (rule R77); `off` is the 13-bit offset of the B format (rule R76) or the 21-bit
offset of the J format (rule R78), bit 0 included; `shamt` is the 5-bit shift amount (rule R79). -/
inductive Instr where
  -- Build (40_build.md)
  | lui (rd : RegIdx) (imm : BitVec 20)
  | auipc (rd : RegIdx) (imm : BitVec 20)
  -- Arithmetic (41_arithmetic.md)
  | add (rd rs1 rs2 : RegIdx)
  | addi (rd rs1 : RegIdx) (imm : BitVec 12)
  | sub (rd rs1 rs2 : RegIdx)
  | mul (rd rs1 rs2 : RegIdx)
  | mulh (rd rs1 rs2 : RegIdx)
  | mulhsu (rd rs1 rs2 : RegIdx)
  | mulhu (rd rs1 rs2 : RegIdx)
  | div (rd rs1 rs2 : RegIdx)
  | divu (rd rs1 rs2 : RegIdx)
  | rem (rd rs1 rs2 : RegIdx)
  | remu (rd rs1 rs2 : RegIdx)
  -- Logical (42_logical.md)
  | xor (rd rs1 rs2 : RegIdx)
  | xori (rd rs1 : RegIdx) (imm : BitVec 12)
  | or (rd rs1 rs2 : RegIdx)
  | ori (rd rs1 : RegIdx) (imm : BitVec 12)
  | and (rd rs1 rs2 : RegIdx)
  | andi (rd rs1 : RegIdx) (imm : BitVec 12)
  -- Shift (43_shift.md)
  | sll (rd rs1 rs2 : RegIdx)
  | slli (rd rs1 : RegIdx) (shamt : BitVec 5)
  | srl (rd rs1 rs2 : RegIdx)
  | srli (rd rs1 : RegIdx) (shamt : BitVec 5)
  | sra (rd rs1 rs2 : RegIdx)
  | srai (rd rs1 : RegIdx) (shamt : BitVec 5)
  -- Compare (44_compare.md)
  | slt (rd rs1 rs2 : RegIdx)
  | slti (rd rs1 : RegIdx) (imm : BitVec 12)
  | sltiu (rd rs1 : RegIdx) (imm : BitVec 12)
  | sltu (rd rs1 rs2 : RegIdx)
  -- Link (45_link.md)
  | jal (rd : RegIdx) (off : BitVec 21)
  | jalr (rd rs1 : RegIdx) (imm : BitVec 12)
  -- Branch (46_branch.md)
  | beq (rs1 rs2 : RegIdx) (off : BitVec 13)
  | bne (rs1 rs2 : RegIdx) (off : BitVec 13)
  | blt (rs1 rs2 : RegIdx) (off : BitVec 13)
  | bge (rs1 rs2 : RegIdx) (off : BitVec 13)
  | bltu (rs1 rs2 : RegIdx) (off : BitVec 13)
  | bgeu (rs1 rs2 : RegIdx) (off : BitVec 13)
  -- Loads (47_loads.md)
  | lb (rd rs1 : RegIdx) (imm : BitVec 12)
  | lh (rd rs1 : RegIdx) (imm : BitVec 12)
  | lbu (rd rs1 : RegIdx) (imm : BitVec 12)
  | lhu (rd rs1 : RegIdx) (imm : BitVec 12)
  | lw (rd rs1 : RegIdx) (imm : BitVec 12)
  -- Stores (48_stores.md): `rs1` is the base, `rs2` the data
  | sb (rs1 rs2 : RegIdx) (imm : BitVec 12)
  | sh (rs1 rs2 : RegIdx) (imm : BitVec 12)
  | sw (rs1 rs2 : RegIdx) (imm : BitVec 12)
  deriving DecidableEq, Repr

end Sys2Proof
end

