-- ==== Sys2Proof/WellFormed.lean ====
section
/-! DEFINITION. Which terms of `Instr` the encoding can hold. Every field has its encoded width, so the only check left
is the forced bit 0 of the B and J offsets (30_encoding.md rules R76, R78, R93). -/

namespace Sys2Proof

/-- A branch offset has bit 0 equal to 0 (30_encoding.md rule R76). -/
def branchOffsetEven (off : BitVec 13) : Bool := off.extractLsb' 0 1 == 0#1

/-- A JAL offset has bit 0 equal to 0 (30_encoding.md rule R78). -/
def jalOffsetEven (off : BitVec 21) : Bool := off.extractLsb' 0 1 == 0#1

/-- The instruction is one the encoding can hold. -/
def Instr.wellFormed : Instr → Bool
  | .jal _ off => jalOffsetEven off
  | .beq _ _ off | .bne _ _ off | .blt _ _ off | .bge _ _ off | .bltu _ _ off | .bgeu _ _ off => branchOffsetEven off
  | .lui _ _ | .auipc _ _ => true
  | .add _ _ _ | .addi _ _ _ | .sub _ _ _ | .mul _ _ _ | .mulh _ _ _ | .mulhsu _ _ _ | .mulhu _ _ _ => true
  | .div _ _ _ | .divu _ _ _ | .rem _ _ _ | .remu _ _ _ => true
  | .xor _ _ _ | .xori _ _ _ | .or _ _ _ | .ori _ _ _ | .and _ _ _ | .andi _ _ _ => true
  | .sll _ _ _ | .slli _ _ _ | .srl _ _ _ | .srli _ _ _ | .sra _ _ _ | .srai _ _ _ => true
  | .slt _ _ _ | .slti _ _ _ | .sltiu _ _ _ | .sltu _ _ _ => true
  | .jalr _ _ _ => true
  | .lb _ _ _ | .lh _ _ _ | .lbu _ _ _ | .lhu _ _ _ | .lw _ _ _ => true
  | .sb _ _ _ | .sh _ _ _ | .sw _ _ _ => true

end Sys2Proof
end

