-- ==== Sys2Proof/Decode.lean ====
section
/-! DEFINITION. From an instruction word to an instruction and back (30_encoding.md), and the opcode table of rule R84. -/

namespace Sys2Proof

/-! ## Fields of an instruction word (rule R70) -/

/-- `opcode = inst[6:0]`. -/
def fieldOpcode (w : Word) : BitVec 7 := w.extractLsb' 0 7

/-- `funct3 = inst[14:12]`. -/
def fieldFunct3 (w : Word) : BitVec 3 := w.extractLsb' 12 3

/-- `funct7 = inst[31:25]`. -/
def fieldFunct7 (w : Word) : BitVec 7 := w.extractLsb' 25 7

/-- `rd = inst[11:7]`. -/
def fieldRd (w : Word) : RegIdx := (w.extractLsb' 7 5).toFin

/-- `rs1 = inst[19:15]`. -/
def fieldRs1 (w : Word) : RegIdx := (w.extractLsb' 15 5).toFin

/-- `rs2 = inst[24:20]`. -/
def fieldRs2 (w : Word) : RegIdx := (w.extractLsb' 20 5).toFin

/-- `shamt5 = inst[24:20]` (rule R79). -/
def fieldShamt (w : Word) : BitVec 5 := w.extractLsb' 20 5

/-- The 12 bits that `immI` extends: `inst[31:20]` (rule R74). -/
def fieldImmI (w : Word) : BitVec 12 := w.extractLsb' 20 12

/-- The 12 bits that `immS` extends: `inst[31:25]`, `inst[11:7]` (rule R75). -/
def fieldImmS (w : Word) : BitVec 12 := w.extractLsb' 25 7 ++ w.extractLsb' 7 5

/-- The 13 bits that `immB` extends: `inst[31]`, `inst[7]`, `inst[30:25]`, `inst[11:8]`, 0 (rule R76). -/
def fieldImmB (w : Word) : BitVec 13 :=
  w.extractLsb' 31 1 ++ w.extractLsb' 7 1 ++ w.extractLsb' 25 6 ++ w.extractLsb' 8 4 ++ 0#1

/-- The 20 bits that `immU` places high: `inst[31:12]` (rule R77). -/
def fieldImmU (w : Word) : BitVec 20 := w.extractLsb' 12 20

/-- The 21 bits that `immJ` extends: `inst[31]`, `inst[19:12]`, `inst[20]`, `inst[30:21]`, 0 (rule R78). -/
def fieldImmJ (w : Word) : BitVec 21 :=
  w.extractLsb' 31 1 ++ w.extractLsb' 12 8 ++ w.extractLsb' 20 1 ++ w.extractLsb' 21 10 ++ 0#1

/-! ## The opcode map (rules R80 to R85)

`JAL_OPCODE`, `BLT_FUNCT3` and `BGEU_FUNCT3` are fields of the configuration; the other encodings are tested before them. -/

/-- LOAD (rule R80). -/
def opcodeLoad : BitVec 7 := 0b0000011#7
/-- OP-IMM (rule R80). -/
def opcodeOpImm : BitVec 7 := 0b0010011#7
/-- AUIPC (rule R80). -/
def opcodeAuipc : BitVec 7 := 0b0010111#7
/-- STORE (rule R80). -/
def opcodeStore : BitVec 7 := 0b0100011#7
/-- OP (rule R80). -/
def opcodeOp : BitVec 7 := 0b0110011#7
/-- LUI (rule R80). -/
def opcodeLui : BitVec 7 := 0b0110111#7
/-- BRANCH (rule R80). -/
def opcodeBranch : BitVec 7 := 0b1100011#7
/-- JALR (rule R80). -/
def opcodeJalr : BitVec 7 := 0b1100111#7

/-- Why a word is none of the 45 instructions: the clauses of 60_exceptions.md rule R201. Every one raises
`IllegalInstruction`. -/
inductive Illegal where
  /-- An opcode other than the nine of rule R80 (rule R88). -/
  | opcode
  /-- Opcode OP with a pair of funct7 and funct3 outside rule R82. -/
  | op
  /-- Opcode OP-IMM, a shift with a wrong `inst[31:25]`, `shamt[5] = 1` included (rule R87). -/
  | shiftImmediate
  /-- Opcode BRANCH with funct3 `010` or `011` (rule R85). -/
  | branch
  /-- Opcode LOAD with funct3 `011`, `110` or `111` (rule R85). -/
  | load
  /-- Opcode STORE with funct3 `011` to `111` (rule R85). -/
  | store
  /-- Opcode JALR with funct3 other than `000` (rule R85). -/
  | jalr
  /-- Fewer than four bytes: no instruction word at all (rule R90: every instruction has 32 bits). -/
  | truncated
  deriving DecidableEq, Repr

/-- Opcode OP (rule R82). -/
def decodeOp (w : Word) : Except Illegal Instr :=
  if fieldFunct7 w = 0b0000000#7 then
    if fieldFunct3 w = 0b000#3 then .ok (.add (fieldRd w) (fieldRs1 w) (fieldRs2 w))
    else if fieldFunct3 w = 0b001#3 then .ok (.sll (fieldRd w) (fieldRs1 w) (fieldRs2 w))
    else if fieldFunct3 w = 0b010#3 then .ok (.slt (fieldRd w) (fieldRs1 w) (fieldRs2 w))
    else if fieldFunct3 w = 0b011#3 then .ok (.sltu (fieldRd w) (fieldRs1 w) (fieldRs2 w))
    else if fieldFunct3 w = 0b100#3 then .ok (.xor (fieldRd w) (fieldRs1 w) (fieldRs2 w))
    else if fieldFunct3 w = 0b101#3 then .ok (.srl (fieldRd w) (fieldRs1 w) (fieldRs2 w))
    else if fieldFunct3 w = 0b110#3 then .ok (.or (fieldRd w) (fieldRs1 w) (fieldRs2 w))
    else /- 111 -/ .ok (.and (fieldRd w) (fieldRs1 w) (fieldRs2 w))
  else if fieldFunct7 w = 0b0100000#7 then
    if fieldFunct3 w = 0b000#3 then .ok (.sub (fieldRd w) (fieldRs1 w) (fieldRs2 w))
    else if fieldFunct3 w = 0b101#3 then .ok (.sra (fieldRd w) (fieldRs1 w) (fieldRs2 w))
    else .error .op
  else if fieldFunct7 w = 0b0000001#7 then
    if fieldFunct3 w = 0b000#3 then .ok (.mul (fieldRd w) (fieldRs1 w) (fieldRs2 w))
    else if fieldFunct3 w = 0b001#3 then .ok (.mulh (fieldRd w) (fieldRs1 w) (fieldRs2 w))
    else if fieldFunct3 w = 0b010#3 then .ok (.mulhsu (fieldRd w) (fieldRs1 w) (fieldRs2 w))
    else if fieldFunct3 w = 0b011#3 then .ok (.mulhu (fieldRd w) (fieldRs1 w) (fieldRs2 w))
    else if fieldFunct3 w = 0b100#3 then .ok (.div (fieldRd w) (fieldRs1 w) (fieldRs2 w))
    else if fieldFunct3 w = 0b101#3 then .ok (.divu (fieldRd w) (fieldRs1 w) (fieldRs2 w))
    else if fieldFunct3 w = 0b110#3 then .ok (.rem (fieldRd w) (fieldRs1 w) (fieldRs2 w))
    else /- 111 -/ .ok (.remu (fieldRd w) (fieldRs1 w) (fieldRs2 w))
  else .error .op

/-- Opcode OP-IMM (rules R73, R83, R87). -/
def decodeOpImm (w : Word) : Except Illegal Instr :=
  if fieldFunct3 w = 0b000#3 then .ok (.addi (fieldRd w) (fieldRs1 w) (fieldImmI w))
  else if fieldFunct3 w = 0b001#3 then
    if fieldFunct7 w = 0b0000000#7 then .ok (.slli (fieldRd w) (fieldRs1 w) (fieldShamt w))
    else .error .shiftImmediate
  else if fieldFunct3 w = 0b010#3 then .ok (.slti (fieldRd w) (fieldRs1 w) (fieldImmI w))
  else if fieldFunct3 w = 0b011#3 then .ok (.sltiu (fieldRd w) (fieldRs1 w) (fieldImmI w))
  else if fieldFunct3 w = 0b100#3 then .ok (.xori (fieldRd w) (fieldRs1 w) (fieldImmI w))
  else if fieldFunct3 w = 0b101#3 then
    if fieldFunct7 w = 0b0000000#7 then .ok (.srli (fieldRd w) (fieldRs1 w) (fieldShamt w))
    else if fieldFunct7 w = 0b0100000#7 then .ok (.srai (fieldRd w) (fieldRs1 w) (fieldShamt w))
    else .error .shiftImmediate
  else if fieldFunct3 w = 0b110#3 then .ok (.ori (fieldRd w) (fieldRs1 w) (fieldImmI w))
  else /- 111 -/ .ok (.andi (fieldRd w) (fieldRs1 w) (fieldImmI w))

/-- Opcode BRANCH (rule R85). -/
def decodeBranch (c : Config) (w : Word) : Except Illegal Instr :=
  if fieldFunct3 w = 0b000#3 then .ok (.beq (fieldRs1 w) (fieldRs2 w) (fieldImmB w))
  else if fieldFunct3 w = 0b001#3 then .ok (.bne (fieldRs1 w) (fieldRs2 w) (fieldImmB w))
  else if fieldFunct3 w = 0b101#3 then .ok (.bge (fieldRs1 w) (fieldRs2 w) (fieldImmB w))
  else if fieldFunct3 w = 0b110#3 then .ok (.bltu (fieldRs1 w) (fieldRs2 w) (fieldImmB w))
  else if fieldFunct3 w = c.bltFunct3 then .ok (.blt (fieldRs1 w) (fieldRs2 w) (fieldImmB w))
  else if fieldFunct3 w = c.bgeuFunct3 then .ok (.bgeu (fieldRs1 w) (fieldRs2 w) (fieldImmB w))
  else .error .branch

/-- Opcode LOAD (rule R85). -/
def decodeLoad (w : Word) : Except Illegal Instr :=
  if fieldFunct3 w = 0b000#3 then .ok (.lb (fieldRd w) (fieldRs1 w) (fieldImmI w))
  else if fieldFunct3 w = 0b001#3 then .ok (.lh (fieldRd w) (fieldRs1 w) (fieldImmI w))
  else if fieldFunct3 w = 0b010#3 then .ok (.lw (fieldRd w) (fieldRs1 w) (fieldImmI w))
  else if fieldFunct3 w = 0b100#3 then .ok (.lbu (fieldRd w) (fieldRs1 w) (fieldImmI w))
  else if fieldFunct3 w = 0b101#3 then .ok (.lhu (fieldRd w) (fieldRs1 w) (fieldImmI w))
  else .error .load

/-- Opcode STORE (rule R85). -/
def decodeStore (w : Word) : Except Illegal Instr :=
  if fieldFunct3 w = 0b000#3 then .ok (.sb (fieldRs1 w) (fieldRs2 w) (fieldImmS w))
  else if fieldFunct3 w = 0b001#3 then .ok (.sh (fieldRs1 w) (fieldRs2 w) (fieldImmS w))
  else if fieldFunct3 w = 0b010#3 then .ok (.sw (fieldRs1 w) (fieldRs2 w) (fieldImmS w))
  else .error .store

/-- Opcode JALR (rule R85). -/
def decodeJalr (w : Word) : Except Illegal Instr :=
  if fieldFunct3 w = 0b000#3 then .ok (.jalr (fieldRd w) (fieldRs1 w) (fieldImmI w)) else .error .jalr

/-- The instruction a word stands for, or why it stands for none (rule R84). -/
def decode (c : Config) (w : Word) : Except Illegal Instr :=
  if fieldOpcode w = opcodeLui then .ok (.lui (fieldRd w) (fieldImmU w))
  else if fieldOpcode w = opcodeAuipc then .ok (.auipc (fieldRd w) (fieldImmU w))
  else if fieldOpcode w = opcodeJalr then decodeJalr w
  else if fieldOpcode w = opcodeBranch then decodeBranch c w
  else if fieldOpcode w = opcodeLoad then decodeLoad w
  else if fieldOpcode w = opcodeStore then decodeStore w
  else if fieldOpcode w = opcodeOpImm then decodeOpImm w
  else if fieldOpcode w = opcodeOp then decodeOp w
  else if fieldOpcode w = c.jalOpcode then .ok (.jal (fieldRd w) (fieldImmJ w))
  else .error .opcode

/-! ## Words and bytes (20_memory.md rules R44, R45) -/

/-- Four bytes, the one at the lowest address first, as a word. -/
def wordOfBytes (order : ByteOrder) (b0 b1 b2 b3 : Byte) : Word :=
  match order with
  | .little => b3 ++ b2 ++ b1 ++ b0
  | .big => b0 ++ b1 ++ b2 ++ b3

/-- The byte of a word that lies `i` addresses above its lowest one, `i` below 4. -/
def byteOfWord (order : ByteOrder) (w : Word) (i : Nat) : Byte :=
  match order with
  | .little => w.extractLsb' (8 * i) 8
  | .big => w.extractLsb' (8 * (3 - i)) 8

/-- The instruction that a list of bytes, lowest address first, begins with, and the bytes after it. -/
def decodeBytes (c : Config) : List Byte → Except Illegal (Instr × List Byte)
  | b0 :: b1 :: b2 :: b3 :: rest =>
    match decode c (wordOfBytes c.byteOrder b0 b1 b2 b3) with
    | .ok i => .ok (i, rest)
    | .error e => .error e
  | _ => .error .truncated

/-- The four bytes of a word as the hardware stores an instruction, lowest address first (rule R45). -/
def bytesOfWord (order : ByteOrder) (w : Word) : List Byte :=
  [byteOfWord order w 0, byteOfWord order w 1, byteOfWord order w 2, byteOfWord order w 3]

/-- The word whose `nbits` low bits are those of `w`, every higher bit 0. -/
def tableWord (nbits w : Nat) : Word := BitVec.ofNat 32 (w % 2 ^ nbits)

/-- What the decoder reads from the bytes of an opcode-table word, under the configuration of `State.reset`. -/
def decodeTableWord (nbits w : Nat) : Option Instr :=
  match decodeBytes Config.initial (bytesOfWord Config.initial.byteOrder (tableWord nbits w)) with
  | .ok (i, _) => some i
  | .error _ => none

/-! ## The encoder: the layouts of rule R70 -/

/-- A register number as a 5-bit field. -/
def regField (r : RegIdx) : BitVec 5 := BitVec.ofFin r

/-- R format. -/
def layoutR (funct7 : BitVec 7) (rs2 rs1 : RegIdx) (funct3 : BitVec 3) (rd : RegIdx) (opcode : BitVec 7) : Word :=
  funct7 ++ regField rs2 ++ regField rs1 ++ funct3 ++ regField rd ++ opcode

/-- I format. -/
def layoutI (imm : BitVec 12) (rs1 : RegIdx) (funct3 : BitVec 3) (rd : RegIdx) (opcode : BitVec 7) : Word :=
  imm ++ regField rs1 ++ funct3 ++ regField rd ++ opcode

/-- I format of a shift: `inst[31:25]` fixed, `inst[24:20]` the amount (rule R73). -/
def layoutShift (upper : BitVec 7) (shamt : BitVec 5) (rs1 : RegIdx) (funct3 : BitVec 3) (rd : RegIdx)
    (opcode : BitVec 7) : Word :=
  upper ++ shamt ++ regField rs1 ++ funct3 ++ regField rd ++ opcode

/-- S format. -/
def layoutS (imm : BitVec 12) (rs2 rs1 : RegIdx) (funct3 : BitVec 3) (opcode : BitVec 7) : Word :=
  imm.extractLsb' 5 7 ++ regField rs2 ++ regField rs1 ++ funct3 ++ imm.extractLsb' 0 5 ++ opcode

/-- B format; bit 0 of the offset is not stored. -/
def layoutB (off : BitVec 13) (rs2 rs1 : RegIdx) (funct3 : BitVec 3) (opcode : BitVec 7) : Word :=
  off.extractLsb' 12 1 ++ off.extractLsb' 5 6 ++ regField rs2 ++ regField rs1 ++ funct3 ++ off.extractLsb' 1 4
    ++ off.extractLsb' 11 1 ++ opcode

/-- U format. -/
def layoutU (imm : BitVec 20) (rd : RegIdx) (opcode : BitVec 7) : Word :=
  imm ++ regField rd ++ opcode

/-- J format; bit 0 of the offset is not stored. -/
def layoutJ (off : BitVec 21) (rd : RegIdx) (opcode : BitVec 7) : Word :=
  off.extractLsb' 20 1 ++ off.extractLsb' 1 10 ++ off.extractLsb' 11 1 ++ off.extractLsb' 12 8 ++ regField rd ++ opcode

/-- The word of an instruction. -/
def encode (c : Config) : Instr → Word
  | .lui rd imm => layoutU imm rd opcodeLui
  | .auipc rd imm => layoutU imm rd opcodeAuipc
  | .add rd rs1 rs2 => layoutR 0b0000000#7 rs2 rs1 0b000#3 rd opcodeOp
  | .addi rd rs1 imm => layoutI imm rs1 0b000#3 rd opcodeOpImm
  | .sub rd rs1 rs2 => layoutR 0b0100000#7 rs2 rs1 0b000#3 rd opcodeOp
  | .mul rd rs1 rs2 => layoutR 0b0000001#7 rs2 rs1 0b000#3 rd opcodeOp
  | .mulh rd rs1 rs2 => layoutR 0b0000001#7 rs2 rs1 0b001#3 rd opcodeOp
  | .mulhsu rd rs1 rs2 => layoutR 0b0000001#7 rs2 rs1 0b010#3 rd opcodeOp
  | .mulhu rd rs1 rs2 => layoutR 0b0000001#7 rs2 rs1 0b011#3 rd opcodeOp
  | .div rd rs1 rs2 => layoutR 0b0000001#7 rs2 rs1 0b100#3 rd opcodeOp
  | .divu rd rs1 rs2 => layoutR 0b0000001#7 rs2 rs1 0b101#3 rd opcodeOp
  | .rem rd rs1 rs2 => layoutR 0b0000001#7 rs2 rs1 0b110#3 rd opcodeOp
  | .remu rd rs1 rs2 => layoutR 0b0000001#7 rs2 rs1 0b111#3 rd opcodeOp
  | .xor rd rs1 rs2 => layoutR 0b0000000#7 rs2 rs1 0b100#3 rd opcodeOp
  | .xori rd rs1 imm => layoutI imm rs1 0b100#3 rd opcodeOpImm
  | .or rd rs1 rs2 => layoutR 0b0000000#7 rs2 rs1 0b110#3 rd opcodeOp
  | .ori rd rs1 imm => layoutI imm rs1 0b110#3 rd opcodeOpImm
  | .and rd rs1 rs2 => layoutR 0b0000000#7 rs2 rs1 0b111#3 rd opcodeOp
  | .andi rd rs1 imm => layoutI imm rs1 0b111#3 rd opcodeOpImm
  | .sll rd rs1 rs2 => layoutR 0b0000000#7 rs2 rs1 0b001#3 rd opcodeOp
  | .slli rd rs1 shamt => layoutShift 0b0000000#7 shamt rs1 0b001#3 rd opcodeOpImm
  | .srl rd rs1 rs2 => layoutR 0b0000000#7 rs2 rs1 0b101#3 rd opcodeOp
  | .srli rd rs1 shamt => layoutShift 0b0000000#7 shamt rs1 0b101#3 rd opcodeOpImm
  | .sra rd rs1 rs2 => layoutR 0b0100000#7 rs2 rs1 0b101#3 rd opcodeOp
  | .srai rd rs1 shamt => layoutShift 0b0100000#7 shamt rs1 0b101#3 rd opcodeOpImm
  | .slt rd rs1 rs2 => layoutR 0b0000000#7 rs2 rs1 0b010#3 rd opcodeOp
  | .slti rd rs1 imm => layoutI imm rs1 0b010#3 rd opcodeOpImm
  | .sltiu rd rs1 imm => layoutI imm rs1 0b011#3 rd opcodeOpImm
  | .sltu rd rs1 rs2 => layoutR 0b0000000#7 rs2 rs1 0b011#3 rd opcodeOp
  | .jal rd off => layoutJ off rd c.jalOpcode
  | .jalr rd rs1 imm => layoutI imm rs1 0b000#3 rd opcodeJalr
  | .beq rs1 rs2 off => layoutB off rs2 rs1 0b000#3 opcodeBranch
  | .bne rs1 rs2 off => layoutB off rs2 rs1 0b001#3 opcodeBranch
  | .blt rs1 rs2 off => layoutB off rs2 rs1 c.bltFunct3 opcodeBranch
  | .bge rs1 rs2 off => layoutB off rs2 rs1 0b101#3 opcodeBranch
  | .bltu rs1 rs2 off => layoutB off rs2 rs1 0b110#3 opcodeBranch
  | .bgeu rs1 rs2 off => layoutB off rs2 rs1 c.bgeuFunct3 opcodeBranch
  | .lb rd rs1 imm => layoutI imm rs1 0b000#3 rd opcodeLoad
  | .lh rd rs1 imm => layoutI imm rs1 0b001#3 rd opcodeLoad
  | .lbu rd rs1 imm => layoutI imm rs1 0b100#3 rd opcodeLoad
  | .lhu rd rs1 imm => layoutI imm rs1 0b101#3 rd opcodeLoad
  | .lw rd rs1 imm => layoutI imm rs1 0b010#3 rd opcodeLoad
  | .sb rs1 rs2 imm => layoutS imm rs2 rs1 0b000#3 opcodeStore
  | .sh rs1 rs2 imm => layoutS imm rs2 rs1 0b001#3 opcodeStore
  | .sw rs1 rs2 imm => layoutS imm rs2 rs1 0b010#3 opcodeStore

/-! ## The match and mask table of rule R84 -/

/-- The row of an instruction in the match and mask table: `(mask, match)`. The three rows that the configuration fixes are
the layout with zeros for operands. -/
def tableRow (c : Config) : Instr → Word × Word
  | .lui _ _ => (0x0000007F, 0x00000037)
  | .auipc _ _ => (0x0000007F, 0x00000017)
  | .add _ _ _ => (0xFE00707F, 0x00000033)
  | .addi _ _ _ => (0x0000707F, 0x00000013)
  | .sub _ _ _ => (0xFE00707F, 0x40000033)
  | .mul _ _ _ => (0xFE00707F, 0x02000033)
  | .mulh _ _ _ => (0xFE00707F, 0x02001033)
  | .mulhsu _ _ _ => (0xFE00707F, 0x02002033)
  | .mulhu _ _ _ => (0xFE00707F, 0x02003033)
  | .div _ _ _ => (0xFE00707F, 0x02004033)
  | .divu _ _ _ => (0xFE00707F, 0x02005033)
  | .rem _ _ _ => (0xFE00707F, 0x02006033)
  | .remu _ _ _ => (0xFE00707F, 0x02007033)
  | .xor _ _ _ => (0xFE00707F, 0x00004033)
  | .xori _ _ _ => (0x0000707F, 0x00004013)
  | .or _ _ _ => (0xFE00707F, 0x00006033)
  | .ori _ _ _ => (0x0000707F, 0x00006013)
  | .and _ _ _ => (0xFE00707F, 0x00007033)
  | .andi _ _ _ => (0x0000707F, 0x00007013)
  | .sll _ _ _ => (0xFE00707F, 0x00001033)
  | .slli _ _ _ => (0xFE00707F, 0x00001013)
  | .srl _ _ _ => (0xFE00707F, 0x00005033)
  | .srli _ _ _ => (0xFE00707F, 0x00005013)
  | .sra _ _ _ => (0xFE00707F, 0x40005033)
  | .srai _ _ _ => (0xFE00707F, 0x40005013)
  | .slt _ _ _ => (0xFE00707F, 0x00002033)
  | .slti _ _ _ => (0x0000707F, 0x00002013)
  | .sltiu _ _ _ => (0x0000707F, 0x00003013)
  | .sltu _ _ _ => (0xFE00707F, 0x00003033)
  | .jal _ _ => (0x0000007F, layoutJ 0 0 c.jalOpcode)
  | .jalr _ _ _ => (0x0000707F, 0x00000067)
  | .beq _ _ _ => (0x0000707F, 0x00000063)
  | .bne _ _ _ => (0x0000707F, 0x00001063)
  | .blt _ _ _ => (0x0000707F, layoutB 0 0 0 c.bltFunct3 opcodeBranch)
  | .bge _ _ _ => (0x0000707F, 0x00005063)
  | .bltu _ _ _ => (0x0000707F, 0x00006063)
  | .bgeu _ _ _ => (0x0000707F, layoutB 0 0 0 c.bgeuFunct3 opcodeBranch)
  | .lb _ _ _ => (0x0000707F, 0x00000003)
  | .lh _ _ _ => (0x0000707F, 0x00001003)
  | .lbu _ _ _ => (0x0000707F, 0x00004003)
  | .lhu _ _ _ => (0x0000707F, 0x00005003)
  | .lw _ _ _ => (0x0000707F, 0x00002003)
  | .sb _ _ _ => (0x0000707F, 0x00000023)
  | .sh _ _ _ => (0x0000707F, 0x00001023)
  | .sw _ _ _ => (0x0000707F, 0x00002023)

end Sys2Proof
end

