-- ==== Sys2Proof/Machine/Memory.lean ====
section
/-! DEFINITION. Memory as data: the map from addresses to bytes of 10_state.md rule R33, kept as a list of cells in one
canonical form, so that equal memories are equal data. -/

namespace Sys2Proof.Machine

/-- The listed bytes of the 2^32-byte address space (20_memory.md rule R40). -/
abbrev Memory := List Host.Cell

/-- What an address that is not listed reads as. DESIGN CHOICE, unsafe (log 4): 10_state.md rule R34 leaves every byte
outside `TEXT` unspecified at reset. -/
def Memory.unlisted : Byte := 0#8

/-- The byte at an address. -/
def Memory.read : Memory → Nat → Byte
  | [], _ => Memory.unlisted
  | c :: m, a => if c.1 = a then c.2 else Memory.read m a

/-- Put a cell before the first cell of a higher address. -/
def Memory.insertCell (a : Nat) (b : Byte) : Memory → Memory
  | [] => [(a, b)]
  | c :: m => if a < c.1 then (a, b) :: c :: m else c :: Memory.insertCell a b m

/-- The memory with the byte at one address replaced. -/
def Memory.write (m : Memory) (a : Nat) (b : Byte) : Memory :=
  let rest := m.filter (fun c => decide (c.1 ≠ a))
  if b = Memory.unlisted then rest else Memory.insertCell a b rest

/-! ## Loading from outside the machine (70_reset_and_hazards.md rule R243) -/

/-- Bytes written upwards from an address, modulo 2^32. -/
def Memory.writeBytes (m : Memory) (a : Word) : List Byte → Memory
  | [] => m
  | b :: bs => Memory.writeBytes (Memory.write m a.toNat b) (a + 1#32) bs

/-- Instruction words written upwards from an address, each as the fetch will read it (20_memory.md rule R45). -/
def Memory.loadWords (order : ByteOrder) (m : Memory) (a : Word) : List Word → Memory
  | [] => m
  | w :: ws => Memory.loadWords order (Memory.writeBytes m a (bytesOfWord order w)) (a + 4#32) ws

/-- The words of a program in memory, whatever lay there before. -/
def Memory.loadProgram (order : ByteOrder) (m : Memory) : List ProgramPart → Memory
  | [] => m
  | p :: ps => Memory.loadProgram order (Memory.loadWords order m p.base p.words) ps

/-- The two regions share no address. -/
def Region.disjoint (r q : Region) : Bool := decide (r.base + r.size ≤ q.base) || decide (q.base + q.size ≤ r.base)

/-- No region shares an address with a later one. -/
def pairwiseDisjoint : List Region → Bool
  | [] => true
  | r :: rs => rs.all (Region.disjoint r) && pairwiseDisjoint rs

/-- The canonical form: addresses below 2^32, strictly rising, and no cell that says what an unlisted address says. -/
def Memory.wf : Memory → Bool
  | [] => true
  | c :: m => decide (c.1 < 4294967296) && decide (c.2 ≠ Memory.unlisted) && m.all (fun d => decide (c.1 < d.1))
      && Memory.wf m

end Sys2Proof.Machine
end

