-- ==== Sys2Proof/Machine/State.lean ====
section
/-! DEFINITION. The machine's state, its reset, and the reasons a step can stop. -/

namespace Sys2Proof.Machine

/-- The faults of 60_exceptions.md rules R201 to R205, a closed list (rule R206). Each is a terminal outcome: the state
is the one before the faulting instruction and nothing has changed (rule R200, log 14). Each is safe: the model stops
where the real core may go on, so no claim that an instruction completes can be proved wrongly. -/
inductive Fault where
  /-- The fetched word is none of the 45 instructions (rule R201). Raised by the decode of a step. Safe. -/
  | illegalInstruction (inst : Word)
  /-- A jump or taken branch computes a target that is not a multiple of 4 (rule R202). Raised by JAL, JALR, BEQ, BNE,
  BLT, BGE, BLTU, BGEU. Safe. -/
  | misalignedFetch (target : Word)
  /-- A load address is not a multiple of its width (rule R203). Raised by LH, LHU, LW. Safe. -/
  | misalignedLoad (addr : Word)
  /-- A store address is not a multiple of its width (rule R204). Raised by SH, SW. Safe. -/
  | misalignedStore (addr : Word)
  /-- An access that `Admit` refuses (rule R205). Raised by the fetch of a step, by every load and every store. Safe. -/
  | accessFault (kind : AccessKind) (addr : Word)
  deriving DecidableEq, Repr

/-- Why the model gives no outcome. -/
inductive Refusal where
  /-- The instruction has no meaning yet. Raised by `exec`'s arms only; no arm does. Safe. -/
  | notModelled (mnemonic : String)
  /-- The pc is not a multiple of 4: 20_memory.md rule R52 speaks of no such state and no run reaches one (10_state.md
  rule R26). Raised by the fetch of a step. DESIGN CHOICE, safe (log 12). -/
  | pcNotAligned (pc : Word)
  deriving DecidableEq, Repr

/-- The architectural state (10_state.md rule R33), and the launch's configuration beside it. -/
structure State where
  /-- The general registers (rule R20). Entry 0 counts only while `X0_ZERO` is false; read through `State.readReg`. -/
  regs : Vector Word 32
  /-- The program counter (rule R24). -/
  pc : Word
  /-- Memory (rule R31). -/
  mem : Memory
  /-- The MODEL's own field: the configuration of the launch (00_scope.md rule R8), changed by no step (log 1). -/
  cfg : Config
  deriving DecidableEq, Repr

/-- What is fixed before a run begins (70_reset_and_hazards.md rule R243). -/
structure Launch where
  /-- The parameters, `TEXT`, `Admit`, `RESET_PC` and `HALT_PC` among them. -/
  cfg : Config
  /-- The program bytes: initial memory on `TEXT`. -/
  program : List ProgramPart
  /-- The initial data memory: initial memory off `TEXT`. -/
  data : Memory
  /-- The registers; entry 0 counts only while `X0_ZERO` is false. -/
  regs : Vector Word 32
  deriving DecidableEq, Repr

/-- What rule R243 asks of a launch: `TEXT` is the addresses of the program, whose words lie at multiples of 4, below 2^32,
each at a place of its own. The data memory is in the canonical form. -/
def Launch.wellFormed (l : Launch) : Bool :=
  l.cfg.wellFormed && decide (l.cfg.text = l.program.map ProgramPart.region) &&
  l.program.all (fun p => p.base.extractLsb' 0 2 == 0#2 && decide (p.base.toNat + 4 * p.words.length ≤ 4294967296)) &&
  pairwiseDisjoint (l.program.map ProgramPart.region) && Memory.wf l.data

/-- The reset state of a launch (10_state.md rule R34, 70_reset_and_hazards.md rules R240, R241): `pc = RESET_PC`, register
0 zero if it is the constant, the program in `TEXT`, the rest of memory and of the registers as the launch fixes it. -/
def State.resetOf (l : Launch) : State :=
  { regs := if l.cfg.x0Zero then l.regs.set 0 0#32 else l.regs
    pc := l.cfg.resetPc
    mem := Memory.loadProgram l.cfg.byteOrder l.data l.program
    cfg := l.cfg }

/-- The launch of `State.reset`: no program. DESIGN CHOICE, unsafe, for what rules R34 and R241 leave unspecified: registers
1 to 31 are zero (log 3) and no byte is listed (log 4). -/
def Launch.initial : Launch := { cfg := Config.initial, program := [], data := [], regs := Vector.replicate 32 0#32 }

/-- The machine right after reset, with nothing placed (70_reset_and_hazards.md rules R240, R241; logs 2 to 6). -/
def State.reset : State := State.resetOf Launch.initial

end Sys2Proof.Machine
end

