-- ==== Sys2Proof/Machine/Ops.lean ====
section
/-! DEFINITION. The operations every meaning is made of: registers, pc, memory accesses with their checks, and raising a
fault. -/

namespace Sys2Proof.Machine

/-! ## Registers and pc (10_state.md rules R12, R22 to R25) -/

/-- Register `i` is the constant zero: `i = 0` and `X0_ZERO` (rule R22). -/
def State.isZeroReg (s : State) (i : RegIdx) : Bool := s.cfg.x0Zero && decide (i = 0)

/-- `x[i]` (00_scope.md rule R12). -/
def State.readReg (s : State) (i : RegIdx) : Word := if s.isZeroReg i then 0#32 else s.regs[i]

/-- `x[i] <- v` (00_scope.md rule R12): a write to the constant zero is discarded (rule R22). -/
def State.writeReg (s : State) (i : RegIdx) (v : Word) : State :=
  if s.isZeroReg i then s else { s with regs := s.regs.set i v }

/-- `pc <- t`. -/
def State.setPc (s : State) (t : Word) : State := { s with pc := t }

/-- `pc <- pc + 4`, modulo 2^32 (rule R25). -/
def State.advance (s : State) : State := s.setPc (s.pc + 4#32)

/-! ## Outcomes -/

/-- What a meaning answers. -/
abbrev Result := Host.Outcome State Fault Refusal

/-- `raise F(info)` (00_scope.md rule R14): the one way an instruction meets an exception. It ends the run: no handler,
no saved pc, no mode change (60_exceptions.md rules R200, R212). -/
def raise (f : Fault) : Result := .fault f

/-- `x[rd] <- v; pc <- pc + 4`: how every instruction that computes a value ends. -/
def writeResult (rd : RegIdx) (v : Word) (s : State) : Result := .next ((s.writeReg rd v).advance)

/-! ## Control transfer (20_memory.md rule R47) -/

/-- The two low bits of an address are `00`. -/
def isMultipleOf4 (a : Word) : Bool := a.extractLsb' 0 2 == 0#2

/-- A control transfer to a misaligned target, by `MISALIGNED_TARGET` (rule R47). -/
def onMisalignedTarget (policy : MisalignedTarget) (target : Word) : Result :=
  match policy with
  | .fault => raise (.misalignedFetch target)

/-- Go to `target` in the state `t`, or raise `MisalignedFetch` with no effect at all (rule R47). -/
def jumpTo (target : Word) (t : State) : Result :=
  if isMultipleOf4 target then .next (t.setPc target) else onMisalignedTarget t.cfg.misalignedTarget target

/-! ## Which accesses exist (20_memory.md rules R42, R48, R58) -/

/-- The address lies in one of the regions. -/
def inRegions (rs : List Region) (a : Nat) : Bool := rs.any (fun r => decide (r.base ≤ a) && decide (a < r.base + r.size))

/-- The byte exists for fetches: those of `TEXT` do (70_reset_and_hazards.md rule R243). -/
def fetchableByte (c : Config) (a : Word) : Bool := inRegions c.fetchable a.toNat || inRegions c.text a.toNat

/-- The byte exists for that kind of access. A byte that can be fetched, `TEXT` included, never exists for stores, so that a
fetch always returns the byte loaded at launch (20_memory.md rule R58, 70_reset_and_hazards.md rule R250; log 18). -/
def admitByte (c : Config) (kind : AccessKind) (a : Word) : Bool :=
  match kind with
  | .fetch => fetchableByte c a
  | .load => inRegions c.loadable a.toNat
  | .store => inRegions c.storable a.toNat && !fetchableByte c a

/-- `Admit(addr, n, kind)`: all n bytes exist for that kind of access (rule R42). -/
def admits (c : Config) (addr : Word) (n : Nat) (kind : AccessKind) : Bool :=
  (List.range n).all (fun i => admitByte c kind (addr + BitVec.ofNat 32 i))

/-- The number of bytes of an access (rule R51). -/
def widthBytes : AccessWidth → Nat
  | .byte => 1
  | .half => 2
  | .word => 4

/-- The address is a multiple of the width (rule R46). -/
def isAligned (addr : Word) : AccessWidth → Bool
  | .byte => true
  | .half => addr.extractLsb' 0 1 == 0#1
  | .word => isMultipleOf4 addr

/-- `MISALIGNED_DATA` lets the access through: it is aligned, or misaligned accesses are split (rule R46). -/
def State.alignmentOk (s : State) (addr : Word) (w : AccessWidth) : Bool :=
  s.cfg.misalignedData == .split || isAligned addr w

/-- Why a load stops, if it does: alignment first, then admission (rules R46, R48). -/
def State.loadFault (s : State) (addr : Word) (w : AccessWidth) : Option Fault :=
  if !s.alignmentOk addr w then some (.misalignedLoad addr)
  else if !admits s.cfg addr (widthBytes w) .load then some (.accessFault .load addr)
  else none

/-- Why a store stops, if it does: alignment first, then admission (rules R46, R48). -/
def State.storeFault (s : State) (addr : Word) (w : AccessWidth) : Option Fault :=
  if !s.alignmentOk addr w then some (.misalignedStore addr)
  else if !admits s.cfg addr (widthBytes w) .store then some (.accessFault .store addr)
  else none

/-! ## Reading and writing memory (20_memory.md rule R44) -/

/-- `mem[a]`. -/
def State.byteAt (s : State) (a : Word) : Byte := Memory.read s.mem a.toNat

/-- `mem[a] <- b`. -/
def State.setByte (s : State) (a : Word) (b : Byte) : State := { s with mem := Memory.write s.mem a.toNat b }

/-- `MemRead(addr, 1)`. -/
def State.read8 (s : State) (addr : Word) : BitVec 8 := s.byteAt addr

/-- `MemRead(addr, 2)`. -/
def State.read16 (s : State) (addr : Word) : BitVec 16 :=
  match s.cfg.byteOrder with
  | .little => s.byteAt (addr + 1#32) ++ s.byteAt addr
  | .big => s.byteAt addr ++ s.byteAt (addr + 1#32)

/-- `MemRead(addr, 4)`. -/
def State.read32 (s : State) (addr : Word) : BitVec 32 :=
  wordOfBytes s.cfg.byteOrder (s.byteAt addr) (s.byteAt (addr + 1#32)) (s.byteAt (addr + 2#32)) (s.byteAt (addr + 3#32))

/-- `MemWrite(addr, 1, v)`. -/
def State.write8 (s : State) (addr : Word) (v : BitVec 8) : State := s.setByte addr v

/-- `MemWrite(addr, 2, v)`. -/
def State.write16 (s : State) (addr : Word) (v : BitVec 16) : State :=
  match s.cfg.byteOrder with
  | .little => (s.setByte addr (v.extractLsb' 0 8)).setByte (addr + 1#32) (v.extractLsb' 8 8)
  | .big => (s.setByte addr (v.extractLsb' 8 8)).setByte (addr + 1#32) (v.extractLsb' 0 8)

/-- `MemWrite(addr, 4, v)`. -/
def State.write32 (s : State) (addr : Word) (v : BitVec 32) : State :=
  let b := byteOfWord s.cfg.byteOrder v
  (((s.setByte addr (b 0)).setByte (addr + 1#32) (b 1)).setByte (addr + 2#32) (b 2)).setByte (addr + 3#32) (b 3)

end Sys2Proof.Machine
end

