-- ==== Sys2Proof/Machine/Operands.lean ====
section
/-! DEFINITION. The operand forms: immediates as 32-bit values (30_encoding.md rules R74 to R79), shift amounts, and the
one addressing mode (20_memory.md rule R40). -/

namespace Sys2Proof.Machine

/-- `immI = sext_12` (rule R74). -/
def immI (imm : BitVec 12) : Word := imm.signExtend 32

/-- `immS = sext_12` (rule R75). -/
def immS (imm : BitVec 12) : Word := imm.signExtend 32

/-- `immB = sext_13` (rule R76). -/
def immB (off : BitVec 13) : Word := off.signExtend 32

/-- `immU`: the 20 bits above twelve zeros (rule R77). -/
def immU (imm : BitVec 20) : Word := imm ++ 0#12

/-- `immJ = sext_21` (rule R78). -/
def immJ (off : BitVec 21) : Word := off.signExtend 32

/-- The amount of a register shift: `x[rs2][4:0]` (43_shift.md rules R140, R142, R144). -/
def shiftAmount (v : Word) : Nat := (v.extractLsb' 0 5).toNat

/-- The effective address of a load: `x[rs1] + immI` modulo 2^32 (20_memory.md rule R40). -/
def loadAddress (s : State) (rs1 : RegIdx) (imm : BitVec 12) : Word := s.readReg rs1 + immI imm

/-- The effective address of a store: `x[rs1] + immS` modulo 2^32 (20_memory.md rule R40). -/
def storeAddress (s : State) (rs1 : RegIdx) (imm : BitVec 12) : Word := s.readReg rs1 + immS imm

end Sys2Proof.Machine
end

