-- ==== Sys2Proof/Machine/Arithmetic.lean ====
section
/-! DEFINITION. The arithmetic instructions (41_arithmetic.md). -/

namespace Sys2Proof.Machine

/-! ## Results -/

/-- Bits 63:32 of an exact product: `(p mod 2^64)[63:32]` (rules R114 to R116). -/
def upperHalf (p : Int) : Word := (BitVec.ofInt 64 p).extractLsb' 32 32

/-- `div_by_zero` (rule R119, log 10). -/
def divByZero (c : DivCorners) (a : Word) : Word :=
  match c with
  | .standard => 0xFFFFFFFF#32
  | .free => Config.freeDivByZero a

/-- `divu_by_zero` (rule R119, log 10). -/
def divuByZero (c : DivCorners) (a : Word) : Word :=
  match c with
  | .standard => 0xFFFFFFFF#32
  | .free => Config.freeDivuByZero a

/-- `rem_by_zero` (rule R119, log 10). -/
def remByZero (c : DivCorners) (a : Word) : Word :=
  match c with
  | .standard => a
  | .free => Config.freeRemByZero a

/-- `remu_by_zero` (rule R119, log 10). -/
def remuByZero (c : DivCorners) (a : Word) : Word :=
  match c with
  | .standard => a
  | .free => Config.freeRemuByZero a

/-- `div_overflow` (rule R119, log 10). -/
def divOverflow : DivCorners → Word
  | .standard => 0x80000000#32
  | .free => Config.freeDivOverflow

/-- `rem_overflow` (rule R119, log 10). -/
def remOverflow : DivCorners → Word
  | .standard => 0x00000000#32
  | .free => Config.freeRemOverflow

/-- The signed division whose quotient does not fit: -2^31 by -1 (rule R119). -/
def isSignedOverflow (a b : Word) : Bool := decide (a.toInt = -2147483648) && decide (b.toInt = -1)

/-- The quotient of DIV (rule R117). -/
def signedQuotient (c : DivCorners) (a b : Word) : Word :=
  if b.toInt = 0 then divByZero c a
  else if isSignedOverflow a b then divOverflow c
  else BitVec.ofInt 32 (a.toInt.tdiv b.toInt)

/-- The quotient of DIVU (rule R118). -/
def unsignedQuotient (c : DivCorners) (a b : Word) : Word :=
  if b.toNat = 0 then divuByZero c a else BitVec.ofNat 32 (a.toNat / b.toNat)

/-- The remainder of REM (rule R120). -/
def signedRemainder (c : DivCorners) (a b : Word) : Word :=
  if b.toInt = 0 then remByZero c a
  else if isSignedOverflow a b then remOverflow c
  else BitVec.ofInt 32 (a.toInt - b.toInt * a.toInt.tdiv b.toInt)

/-- The remainder of REMU (rule R121). -/
def unsignedRemainder (c : DivCorners) (a b : Word) : Word :=
  if b.toNat = 0 then remuByZero c a else BitVec.ofNat 32 (a.toNat - b.toNat * (a.toNat / b.toNat))

/-! ## Meanings -/

/-- ADD: modulo 2^32, overflow ignored (rule R110). -/
def execAdd (rd rs1 rs2 : RegIdx) (s : State) : Result := writeResult rd (s.readReg rs1 + s.readReg rs2) s

/-- ADDI: the immediate sign-extended, modulo 2^32 (rule R111). -/
def execAddi (rd rs1 : RegIdx) (imm : BitVec 12) (s : State) : Result := writeResult rd (s.readReg rs1 + immI imm) s

/-- SUB: modulo 2^32, overflow ignored (rule R112). -/
def execSub (rd rs1 rs2 : RegIdx) (s : State) : Result := writeResult rd (s.readReg rs1 - s.readReg rs2) s

/-- MUL: the low 32 bits of the product (rule R113). -/
def execMul (rd rs1 rs2 : RegIdx) (s : State) : Result :=
  writeResult rd (BitVec.ofNat 32 ((s.readReg rs1).toNat * (s.readReg rs2).toNat)) s

/-- MULH: signed by signed (rule R114). -/
def execMulh (rd rs1 rs2 : RegIdx) (s : State) : Result :=
  writeResult rd (upperHalf ((s.readReg rs1).toInt * (s.readReg rs2).toInt)) s

/-- MULHSU: signed `rs1` by unsigned `rs2` (rule R115). -/
def execMulhsu (rd rs1 rs2 : RegIdx) (s : State) : Result :=
  writeResult rd (upperHalf ((s.readReg rs1).toInt * ((s.readReg rs2).toNat : Int))) s

/-- MULHU: unsigned by unsigned (rule R116). -/
def execMulhu (rd rs1 rs2 : RegIdx) (s : State) : Result :=
  writeResult rd (upperHalf (((s.readReg rs1).toNat : Int) * ((s.readReg rs2).toNat : Int))) s

/-- DIV (rule R117). -/
def execDiv (rd rs1 rs2 : RegIdx) (s : State) : Result :=
  writeResult rd (signedQuotient s.cfg.divCorners (s.readReg rs1) (s.readReg rs2)) s

/-- DIVU (rule R118). -/
def execDivu (rd rs1 rs2 : RegIdx) (s : State) : Result :=
  writeResult rd (unsignedQuotient s.cfg.divCorners (s.readReg rs1) (s.readReg rs2)) s

/-- REM (rule R120). -/
def execRem (rd rs1 rs2 : RegIdx) (s : State) : Result :=
  writeResult rd (signedRemainder s.cfg.divCorners (s.readReg rs1) (s.readReg rs2)) s

/-- REMU (rule R121). -/
def execRemu (rd rs1 rs2 : RegIdx) (s : State) : Result :=
  writeResult rd (unsignedRemainder s.cfg.divCorners (s.readReg rs1) (s.readReg rs2)) s

end Sys2Proof.Machine
end

