-- ==== Sys2Proof/Machine/Flags.lean ====
section
/-! DEFINITION. Conditions. There are no flags (10_state.md rule R27): a condition is computed from two values where it
is used. The comparisons of 00_scope.md rule R10. -/

namespace Sys2Proof.Machine

/-- `a == b`: all 32 bits equal. -/
def condEq (a b : Word) : Bool := decide (a = b)

/-- `a != b`. -/
def condNe (a b : Word) : Bool := !condEq a b

/-- `a <s b`: compares `signed` values. -/
def condLtS (a b : Word) : Bool := decide (a.toInt < b.toInt)

/-- `a >=s b`: the negation of `<s`. -/
def condGeS (a b : Word) : Bool := !condLtS a b

/-- `a <u b`: compares `unsigned` values. -/
def condLtU (a b : Word) : Bool := decide (a.toNat < b.toNat)

/-- `a >=u b`: the negation of `<u`. -/
def condGeU (a b : Word) : Bool := !condLtU a b

/-- `bool32(c)`. -/
def bool32 (c : Bool) : Word := if c then 0x00000001#32 else 0x00000000#32

end Sys2Proof.Machine
end

