-- ==== Sys2Proof/Machine/Branch.lean ====
section
/-! DEFINITION. The conditional branches (46_branch.md). -/

namespace Sys2Proof.Machine

/-- The common pseudocode of 46_branch.md: the offset counts from the branch itself, and a branch that is not taken
never faults. -/
def branchIf (taken : Bool) (off : BitVec 13) (s : State) : Result :=
  if taken then jumpTo (s.pc + immB off) s else .next s.advance

/-- BEQ (rule R170). -/
def execBeq (rs1 rs2 : RegIdx) (off : BitVec 13) (s : State) : Result :=
  branchIf (condEq (s.readReg rs1) (s.readReg rs2)) off s

/-- BNE (rule R171). -/
def execBne (rs1 rs2 : RegIdx) (off : BitVec 13) (s : State) : Result :=
  branchIf (condNe (s.readReg rs1) (s.readReg rs2)) off s

/-- BLT: signed (rule R172). -/
def execBlt (rs1 rs2 : RegIdx) (off : BitVec 13) (s : State) : Result :=
  branchIf (condLtS (s.readReg rs1) (s.readReg rs2)) off s

/-- BGE: signed (rule R173). -/
def execBge (rs1 rs2 : RegIdx) (off : BitVec 13) (s : State) : Result :=
  branchIf (condGeS (s.readReg rs1) (s.readReg rs2)) off s

/-- BLTU: unsigned (rule R174). -/
def execBltu (rs1 rs2 : RegIdx) (off : BitVec 13) (s : State) : Result :=
  branchIf (condLtU (s.readReg rs1) (s.readReg rs2)) off s

/-- BGEU: unsigned (rule R175). -/
def execBgeu (rs1 rs2 : RegIdx) (off : BitVec 13) (s : State) : Result :=
  branchIf (condGeU (s.readReg rs1) (s.readReg rs2)) off s

end Sys2Proof.Machine
end

