-- ==== Sys2Proof/Machine/Build.lean ====
section
/-! DEFINITION. The build instructions LUI and AUIPC (40_build.md). -/

namespace Sys2Proof.Machine

/-- LUI: `x[rd] <- immU` (rule R100). -/
def execLui (rd : RegIdx) (imm : BitVec 20) (s : State) : Result := writeResult rd (immU imm) s

/-- AUIPC: `x[rd] <- pc + immU`, the pc being the address of this AUIPC (rule R101). -/
def execAuipc (rd : RegIdx) (imm : BitVec 20) (s : State) : Result := writeResult rd (s.pc + immU imm) s

end Sys2Proof.Machine
end

