-- ==== Sys2Proof/Machine/Compare.lean ====
section
/-! DEFINITION. The compare instructions: the truth value becomes 1 or 0 in `x[rd]` (44_compare.md). -/

namespace Sys2Proof.Machine

/-- SLT: signed (rule R150). -/
def execSlt (rd rs1 rs2 : RegIdx) (s : State) : Result :=
  writeResult rd (bool32 (condLtS (s.readReg rs1) (s.readReg rs2))) s

/-- SLTI: signed, against the sign-extended immediate (rule R151). -/
def execSlti (rd rs1 : RegIdx) (imm : BitVec 12) (s : State) : Result :=
  writeResult rd (bool32 (condLtS (s.readReg rs1) (immI imm))) s

/-- SLTIU: the immediate is sign-extended first, then both sides are read as unsigned (rule R152). -/
def execSltiu (rd rs1 : RegIdx) (imm : BitVec 12) (s : State) : Result :=
  writeResult rd (bool32 (condLtU (s.readReg rs1) (immI imm))) s

/-- SLTU: unsigned (rule R153). -/
def execSltu (rd rs1 rs2 : RegIdx) (s : State) : Result :=
  writeResult rd (bool32 (condLtU (s.readReg rs1) (s.readReg rs2))) s

end Sys2Proof.Machine
end

