-- ==== Sys2Proof/Machine/Link.lean ====
section
/-! DEFINITION. The unconditional jumps (45_link.md). A misaligned target leaves `x[rd]` and the pc as they were. -/

namespace Sys2Proof.Machine

/-- JAL: the offset counts from this JAL; the link is `pc + 4` (rule R160). -/
def execJal (rd : RegIdx) (off : BitVec 21) (s : State) : Result :=
  jumpTo (s.pc + immJ off) (s.writeReg rd (s.pc + 4#32))

/-- The target of a JALR: the sum with bit 0 cleared (rule R161). -/
def jalrTarget (s : State) (rs1 : RegIdx) (imm : BitVec 12) : Word := (s.readReg rs1 + immI imm) &&& 0xFFFFFFFE#32

/-- JALR: the target comes from `x[rs1]` before `x[rd]` is written (rule R161). -/
def execJalr (rd rs1 : RegIdx) (imm : BitVec 12) (s : State) : Result :=
  jumpTo (jalrTarget s rs1 imm) (s.writeReg rd (s.pc + 4#32))

end Sys2Proof.Machine
end

