-- ==== Sys2Proof/Machine/Loads.lean ====
section
/-! DEFINITION. The loads (47_loads.md). With `rd = 0` the access is still made and can still fault. -/

namespace Sys2Proof.Machine

/-- The common form of a load of width `w` at `addr`: the checks, then `x[rd] <- v; pc <- pc + 4`. -/
def loadWith (w : AccessWidth) (addr : Word) (rd : RegIdx) (v : Word) (s : State) : Result :=
  match s.loadFault addr w with
  | some f => raise f
  | none => writeResult rd v s

/-- LB: sign-extended byte (rule R180). -/
def execLb (rd rs1 : RegIdx) (imm : BitVec 12) (s : State) : Result :=
  loadWith .byte (loadAddress s rs1 imm) rd ((s.read8 (loadAddress s rs1 imm)).signExtend 32) s

/-- LH: sign-extended halfword (rule R181). -/
def execLh (rd rs1 : RegIdx) (imm : BitVec 12) (s : State) : Result :=
  loadWith .half (loadAddress s rs1 imm) rd ((s.read16 (loadAddress s rs1 imm)).signExtend 32) s

/-- LBU: zero-extended byte (rule R182). -/
def execLbu (rd rs1 : RegIdx) (imm : BitVec 12) (s : State) : Result :=
  loadWith .byte (loadAddress s rs1 imm) rd ((s.read8 (loadAddress s rs1 imm)).setWidth 32) s

/-- LHU: zero-extended halfword (rule R183). -/
def execLhu (rd rs1 : RegIdx) (imm : BitVec 12) (s : State) : Result :=
  loadWith .half (loadAddress s rs1 imm) rd ((s.read16 (loadAddress s rs1 imm)).setWidth 32) s

/-- LW: four bytes (rule R184). -/
def execLw (rd rs1 : RegIdx) (imm : BitVec 12) (s : State) : Result :=
  loadWith .word (loadAddress s rs1 imm) rd (s.read32 (loadAddress s rs1 imm)) s

end Sys2Proof.Machine
end

