-- ==== Sys2Proof/Machine/Logical.lean ====
section
/-! DEFINITION. The logical instructions, bit-wise on all 32 bits (42_logical.md). -/

namespace Sys2Proof.Machine

/-- XOR (rule R130). -/
def execXor (rd rs1 rs2 : RegIdx) (s : State) : Result := writeResult rd (s.readReg rs1 ^^^ s.readReg rs2) s

/-- XORI: the immediate sign-extended (rule R131). -/
def execXori (rd rs1 : RegIdx) (imm : BitVec 12) (s : State) : Result := writeResult rd (s.readReg rs1 ^^^ immI imm) s

/-- OR (rule R132). -/
def execOr (rd rs1 rs2 : RegIdx) (s : State) : Result := writeResult rd (s.readReg rs1 ||| s.readReg rs2) s

/-- ORI: the immediate sign-extended (rule R133). -/
def execOri (rd rs1 : RegIdx) (imm : BitVec 12) (s : State) : Result := writeResult rd (s.readReg rs1 ||| immI imm) s

/-- AND (rule R134). -/
def execAnd (rd rs1 rs2 : RegIdx) (s : State) : Result := writeResult rd (s.readReg rs1 &&& s.readReg rs2) s

/-- ANDI: the immediate sign-extended (rule R135). -/
def execAndi (rd rs1 : RegIdx) (imm : BitVec 12) (s : State) : Result := writeResult rd (s.readReg rs1 &&& immI imm) s

end Sys2Proof.Machine
end

