-- ==== Sys2Proof/Machine/Shift.lean ====
section
/-! DEFINITION. The shift instructions; every amount is 0 to 31 (43_shift.md). -/

namespace Sys2Proof.Machine

/-- SLL: zero fill, by `x[rs2][4:0]` (rule R140). -/
def execSll (rd rs1 rs2 : RegIdx) (s : State) : Result :=
  writeResult rd (s.readReg rs1 <<< shiftAmount (s.readReg rs2)) s

/-- SLLI: zero fill, by `shamt5` (rule R141). -/
def execSlli (rd rs1 : RegIdx) (shamt : BitVec 5) (s : State) : Result :=
  writeResult rd (s.readReg rs1 <<< shamt.toNat) s

/-- SRL: zero fill, by `x[rs2][4:0]` (rule R142). -/
def execSrl (rd rs1 rs2 : RegIdx) (s : State) : Result :=
  writeResult rd (s.readReg rs1 >>> shiftAmount (s.readReg rs2)) s

/-- SRLI: zero fill, by `shamt5` (rule R143). -/
def execSrli (rd rs1 : RegIdx) (shamt : BitVec 5) (s : State) : Result :=
  writeResult rd (s.readReg rs1 >>> shamt.toNat) s

/-- SRA: filled with copies of bit 31, by `x[rs2][4:0]` (rule R144). -/
def execSra (rd rs1 rs2 : RegIdx) (s : State) : Result :=
  writeResult rd ((s.readReg rs1).sshiftRight (shiftAmount (s.readReg rs2))) s

/-- SRAI: filled with copies of bit 31, by `shamt5` (rule R145). -/
def execSrai (rd rs1 : RegIdx) (shamt : BitVec 5) (s : State) : Result :=
  writeResult rd ((s.readReg rs1).sshiftRight shamt.toNat) s

end Sys2Proof.Machine
end

