-- ==== Sys2Proof/Machine/Stores.lean ====
section
/-! DEFINITION. The stores (48_stores.md). No register is written; `rs2 = 0` stores zero bytes. -/

namespace Sys2Proof.Machine

/-- The common form of a store of width `w` at `addr`: the checks, then the written state `t` with its pc advanced. -/
def storeWith (w : AccessWidth) (addr : Word) (t : State) (s : State) : Result :=
  match s.storeFault addr w with
  | some f => raise f
  | none => .next t.advance

/-- SB: the least significant byte of `x[rs2]` (rule R190). -/
def execSb (rs1 rs2 : RegIdx) (imm : BitVec 12) (s : State) : Result :=
  storeWith .byte (storeAddress s rs1 imm)
    (s.write8 (storeAddress s rs1 imm) ((s.readReg rs2).extractLsb' 0 8)) s

/-- SH: the two least significant bytes of `x[rs2]` (rule R191). -/
def execSh (rs1 rs2 : RegIdx) (imm : BitVec 12) (s : State) : Result :=
  storeWith .half (storeAddress s rs1 imm)
    (s.write16 (storeAddress s rs1 imm) ((s.readReg rs2).extractLsb' 0 16)) s

/-- SW: the whole of `x[rs2]` (rule R192). -/
def execSw (rs1 rs2 : RegIdx) (imm : BitVec 12) (s : State) : Result :=
  storeWith .word (storeAddress s rs1 imm) (s.write32 (storeAddress s rs1 imm) (s.readReg rs2)) s

end Sys2Proof.Machine
end

