-- ==== Sys2Proof/Machine/Fetch.lean ====
section
/-! DEFINITION. The front of a step: fetch and decode (20_memory.md rule R52, 30_encoding.md rule R84), and the load of a
program word from outside the machine. -/

namespace Sys2Proof.Machine

/-- The instruction word at the pc: `Fetch(pc)` (20_memory.md rules R45, R52). -/
def State.fetchWord (s : State) : Word := s.read32 s.pc

/-- A word that is none of the 45 instructions, by `ILLEGAL` (30_encoding.md rule R86). -/
def onIllegalWord (policy : IllegalWord) (inst : Word) : Result :=
  match policy with
  | .fault => raise (.illegalInstruction inst)

/-- Fetch, decode, and hand the instruction to `run`, in the order of 60_exceptions.md rule R211: the fetch's admission,
then the decode. A pc that is not a multiple of 4 is refused first (log 12). -/
def fetchAndRun (s : State) (run : Instr → Result) : Result :=
  if !isMultipleOf4 s.pc then .refused (.pcNotAligned s.pc)
  else if !admits s.cfg s.pc 4 .fetch then raise (.accessFault .fetch s.pc)
  else
    match decode s.cfg s.fetchWord with
    | .error _ => onIllegalWord s.cfg.illegal s.fetchWord
    | .ok i => run i

/-- One program word loaded at the pc, as the launch of 70_reset_and_hazards.md rule R243 loads a program: its four bytes
in memory, their addresses in `TEXT` (log 6). -/
def loadProgramWord (s : State) (w : Word) : State :=
  let part : ProgramPart := ⟨s.pc, [w]⟩
  { s with
    mem := Memory.loadProgram s.cfg.byteOrder s.mem [part]
    cfg := { s.cfg with text := part.region :: s.cfg.text } }

end Sys2Proof.Machine
end

