-- ==== Sys2Proof/Machine/Step.lean ====
section
/-! DEFINITION. One step of the machine (10_state.md rule R33). -/

namespace Sys2Proof.Machine

/-- Fetch, decode, execute. `HALT_PC` delimits a run and is no part of a step (70_reset_and_hazards.md rules R245, R246;
log 15). -/
def step (s : State) : Host.Outcome State Fault Refusal := fetchAndRun s (fun i => exec i s)

/-- The state with an instruction word of the opcode table stored where `step` fetches next (log 6). -/
def State.withFetchWord (s : State) (nbits w : Nat) : State := loadProgramWord s (tableWord nbits w)

end Sys2Proof.Machine
end

