-- ==== Sys2Proof/Laws/Encoding.lean ====
section
/-! SUPPORT. The fields of each layout, and each layout put together again from its fields (30_encoding.md rule R70). -/

namespace Sys2Proof

@[simp] theorem fieldOpcode_layoutR (funct7 : BitVec 7) (rs2 rs1 : RegIdx) (funct3 : BitVec 3) (rd : RegIdx) (opcode : BitVec 7) :
    fieldOpcode (layoutR funct7 rs2 rs1 funct3 rd opcode) = opcode := by
  unfold fieldOpcode layoutR
  rw [BitVec.extractLsb'_append_eq_of_add_le (by omega)]
  simp

@[simp] theorem fieldFunct3_layoutR (funct7 : BitVec 7) (rs2 rs1 : RegIdx) (funct3 : BitVec 3) (rd : RegIdx) (opcode : BitVec 7) :
    fieldFunct3 (layoutR funct7 rs2 rs1 funct3 rd opcode) = funct3 := by
  unfold fieldFunct3 layoutR
  rw [BitVec.extractLsb'_append_eq_of_le (by omega)]
  rw [BitVec.extractLsb'_append_eq_of_le (by omega)]
  rw [BitVec.extractLsb'_append_eq_of_add_le (by omega)]
  simp

@[simp] theorem fieldRd_layoutR (funct7 : BitVec 7) (rs2 rs1 : RegIdx) (funct3 : BitVec 3) (rd : RegIdx) (opcode : BitVec 7) :
    fieldRd (layoutR funct7 rs2 rs1 funct3 rd opcode) = rd := by
  unfold fieldRd layoutR
  rw [BitVec.extractLsb'_append_eq_of_le (by omega)]
  rw [BitVec.extractLsb'_append_eq_of_add_le (by omega)]
  simp [regField]

@[simp] theorem fieldRs1_layoutR (funct7 : BitVec 7) (rs2 rs1 : RegIdx) (funct3 : BitVec 3) (rd : RegIdx) (opcode : BitVec 7) :
    fieldRs1 (layoutR funct7 rs2 rs1 funct3 rd opcode) = rs1 := by
  unfold fieldRs1 layoutR
  rw [BitVec.extractLsb'_append_eq_of_le (by omega)]
  rw [BitVec.extractLsb'_append_eq_of_le (by omega)]
  rw [BitVec.extractLsb'_append_eq_of_le (by omega)]
  rw [BitVec.extractLsb'_append_eq_of_add_le (by omega)]
  simp [regField]

@[simp] theorem fieldRs2_layoutR (funct7 : BitVec 7) (rs2 rs1 : RegIdx) (funct3 : BitVec 3) (rd : RegIdx) (opcode : BitVec 7) :
    fieldRs2 (layoutR funct7 rs2 rs1 funct3 rd opcode) = rs2 := by
  unfold fieldRs2 layoutR
  rw [BitVec.extractLsb'_append_eq_of_le (by omega)]
  rw [BitVec.extractLsb'_append_eq_of_le (by omega)]
  rw [BitVec.extractLsb'_append_eq_of_le (by omega)]
  rw [BitVec.extractLsb'_append_eq_of_le (by omega)]
  rw [BitVec.extractLsb'_append_eq_of_add_le (by omega)]
  simp [regField]

@[simp] theorem fieldFunct7_layoutR (funct7 : BitVec 7) (rs2 rs1 : RegIdx) (funct3 : BitVec 3) (rd : RegIdx) (opcode : BitVec 7) :
    fieldFunct7 (layoutR funct7 rs2 rs1 funct3 rd opcode) = funct7 := by
  unfold fieldFunct7 layoutR
  rw [BitVec.extractLsb'_append_eq_of_le (by omega)]
  rw [BitVec.extractLsb'_append_eq_of_le (by omega)]
  rw [BitVec.extractLsb'_append_eq_of_le (by omega)]
  rw [BitVec.extractLsb'_append_eq_of_le (by omega)]
  rw [BitVec.extractLsb'_append_eq_of_le (by omega)]
  simp

@[simp] theorem fieldOpcode_layoutI (imm : BitVec 12) (rs1 : RegIdx) (funct3 : BitVec 3) (rd : RegIdx) (opcode : BitVec 7) :
    fieldOpcode (layoutI imm rs1 funct3 rd opcode) = opcode := by
  unfold fieldOpcode layoutI
  rw [BitVec.extractLsb'_append_eq_of_add_le (by omega)]
  simp

@[simp] theorem fieldFunct3_layoutI (imm : BitVec 12) (rs1 : RegIdx) (funct3 : BitVec 3) (rd : RegIdx) (opcode : BitVec 7) :
    fieldFunct3 (layoutI imm rs1 funct3 rd opcode) = funct3 := by
  unfold fieldFunct3 layoutI
  rw [BitVec.extractLsb'_append_eq_of_le (by omega)]
  rw [BitVec.extractLsb'_append_eq_of_le (by omega)]
  rw [BitVec.extractLsb'_append_eq_of_add_le (by omega)]
  simp

@[simp] theorem fieldRd_layoutI (imm : BitVec 12) (rs1 : RegIdx) (funct3 : BitVec 3) (rd : RegIdx) (opcode : BitVec 7) :
    fieldRd (layoutI imm rs1 funct3 rd opcode) = rd := by
  unfold fieldRd layoutI
  rw [BitVec.extractLsb'_append_eq_of_le (by omega)]
  rw [BitVec.extractLsb'_append_eq_of_add_le (by omega)]
  simp [regField]

@[simp] theorem fieldRs1_layoutI (imm : BitVec 12) (rs1 : RegIdx) (funct3 : BitVec 3) (rd : RegIdx) (opcode : BitVec 7) :
    fieldRs1 (layoutI imm rs1 funct3 rd opcode) = rs1 := by
  unfold fieldRs1 layoutI
  rw [BitVec.extractLsb'_append_eq_of_le (by omega)]
  rw [BitVec.extractLsb'_append_eq_of_le (by omega)]
  rw [BitVec.extractLsb'_append_eq_of_le (by omega)]
  rw [BitVec.extractLsb'_append_eq_of_add_le (by omega)]
  simp [regField]

@[simp] theorem fieldImmI_layoutI (imm : BitVec 12) (rs1 : RegIdx) (funct3 : BitVec 3) (rd : RegIdx) (opcode : BitVec 7) :
    fieldImmI (layoutI imm rs1 funct3 rd opcode) = imm := by
  unfold fieldImmI layoutI
  rw [BitVec.extractLsb'_append_eq_of_le (by omega)]
  rw [BitVec.extractLsb'_append_eq_of_le (by omega)]
  rw [BitVec.extractLsb'_append_eq_of_le (by omega)]
  rw [BitVec.extractLsb'_append_eq_of_le (by omega)]
  simp

@[simp] theorem fieldOpcode_layoutShift (upper : BitVec 7) (shamt : BitVec 5) (rs1 : RegIdx) (funct3 : BitVec 3) (rd : RegIdx) (opcode : BitVec 7) :
    fieldOpcode (layoutShift upper shamt rs1 funct3 rd opcode) = opcode := by
  unfold fieldOpcode layoutShift
  rw [BitVec.extractLsb'_append_eq_of_add_le (by omega)]
  simp

@[simp] theorem fieldFunct3_layoutShift (upper : BitVec 7) (shamt : BitVec 5) (rs1 : RegIdx) (funct3 : BitVec 3) (rd : RegIdx) (opcode : BitVec 7) :
    fieldFunct3 (layoutShift upper shamt rs1 funct3 rd opcode) = funct3 := by
  unfold fieldFunct3 layoutShift
  rw [BitVec.extractLsb'_append_eq_of_le (by omega)]
  rw [BitVec.extractLsb'_append_eq_of_le (by omega)]
  rw [BitVec.extractLsb'_append_eq_of_add_le (by omega)]
  simp

@[simp] theorem fieldRd_layoutShift (upper : BitVec 7) (shamt : BitVec 5) (rs1 : RegIdx) (funct3 : BitVec 3) (rd : RegIdx) (opcode : BitVec 7) :
    fieldRd (layoutShift upper shamt rs1 funct3 rd opcode) = rd := by
  unfold fieldRd layoutShift
  rw [BitVec.extractLsb'_append_eq_of_le (by omega)]
  rw [BitVec.extractLsb'_append_eq_of_add_le (by omega)]
  simp [regField]

@[simp] theorem fieldRs1_layoutShift (upper : BitVec 7) (shamt : BitVec 5) (rs1 : RegIdx) (funct3 : BitVec 3) (rd : RegIdx) (opcode : BitVec 7) :
    fieldRs1 (layoutShift upper shamt rs1 funct3 rd opcode) = rs1 := by
  unfold fieldRs1 layoutShift
  rw [BitVec.extractLsb'_append_eq_of_le (by omega)]
  rw [BitVec.extractLsb'_append_eq_of_le (by omega)]
  rw [BitVec.extractLsb'_append_eq_of_le (by omega)]
  rw [BitVec.extractLsb'_append_eq_of_add_le (by omega)]
  simp [regField]

@[simp] theorem fieldFunct7_layoutShift (upper : BitVec 7) (shamt : BitVec 5) (rs1 : RegIdx) (funct3 : BitVec 3) (rd : RegIdx) (opcode : BitVec 7) :
    fieldFunct7 (layoutShift upper shamt rs1 funct3 rd opcode) = upper := by
  unfold fieldFunct7 layoutShift
  rw [BitVec.extractLsb'_append_eq_of_le (by omega)]
  rw [BitVec.extractLsb'_append_eq_of_le (by omega)]
  rw [BitVec.extractLsb'_append_eq_of_le (by omega)]
  rw [BitVec.extractLsb'_append_eq_of_le (by omega)]
  rw [BitVec.extractLsb'_append_eq_of_le (by omega)]
  simp

@[simp] theorem fieldShamt_layoutShift (upper : BitVec 7) (shamt : BitVec 5) (rs1 : RegIdx) (funct3 : BitVec 3) (rd : RegIdx) (opcode : BitVec 7) :
    fieldShamt (layoutShift upper shamt rs1 funct3 rd opcode) = shamt := by
  unfold fieldShamt layoutShift
  rw [BitVec.extractLsb'_append_eq_of_le (by omega)]
  rw [BitVec.extractLsb'_append_eq_of_le (by omega)]
  rw [BitVec.extractLsb'_append_eq_of_le (by omega)]
  rw [BitVec.extractLsb'_append_eq_of_le (by omega)]
  rw [BitVec.extractLsb'_append_eq_of_add_le (by omega)]
  simp

@[simp] theorem fieldOpcode_layoutS (imm : BitVec 12) (rs2 rs1 : RegIdx) (funct3 : BitVec 3) (opcode : BitVec 7) :
    fieldOpcode (layoutS imm rs2 rs1 funct3 opcode) = opcode := by
  unfold fieldOpcode layoutS
  rw [BitVec.extractLsb'_append_eq_of_add_le (by omega)]
  simp

@[simp] theorem fieldFunct3_layoutS (imm : BitVec 12) (rs2 rs1 : RegIdx) (funct3 : BitVec 3) (opcode : BitVec 7) :
    fieldFunct3 (layoutS imm rs2 rs1 funct3 opcode) = funct3 := by
  unfold fieldFunct3 layoutS
  rw [BitVec.extractLsb'_append_eq_of_le (by omega)]
  rw [BitVec.extractLsb'_append_eq_of_le (by omega)]
  rw [BitVec.extractLsb'_append_eq_of_add_le (by omega)]
  simp

@[simp] theorem fieldRs1_layoutS (imm : BitVec 12) (rs2 rs1 : RegIdx) (funct3 : BitVec 3) (opcode : BitVec 7) :
    fieldRs1 (layoutS imm rs2 rs1 funct3 opcode) = rs1 := by
  unfold fieldRs1 layoutS
  rw [BitVec.extractLsb'_append_eq_of_le (by omega)]
  rw [BitVec.extractLsb'_append_eq_of_le (by omega)]
  rw [BitVec.extractLsb'_append_eq_of_le (by omega)]
  rw [BitVec.extractLsb'_append_eq_of_add_le (by omega)]
  simp [regField]

@[simp] theorem fieldRs2_layoutS (imm : BitVec 12) (rs2 rs1 : RegIdx) (funct3 : BitVec 3) (opcode : BitVec 7) :
    fieldRs2 (layoutS imm rs2 rs1 funct3 opcode) = rs2 := by
  unfold fieldRs2 layoutS
  rw [BitVec.extractLsb'_append_eq_of_le (by omega)]
  rw [BitVec.extractLsb'_append_eq_of_le (by omega)]
  rw [BitVec.extractLsb'_append_eq_of_le (by omega)]
  rw [BitVec.extractLsb'_append_eq_of_le (by omega)]
  rw [BitVec.extractLsb'_append_eq_of_add_le (by omega)]
  simp [regField]

@[simp] theorem fieldOpcode_layoutB (off : BitVec 13) (rs2 rs1 : RegIdx) (funct3 : BitVec 3) (opcode : BitVec 7) :
    fieldOpcode (layoutB off rs2 rs1 funct3 opcode) = opcode := by
  unfold fieldOpcode layoutB
  rw [BitVec.extractLsb'_append_eq_of_add_le (by omega)]
  simp

@[simp] theorem fieldFunct3_layoutB (off : BitVec 13) (rs2 rs1 : RegIdx) (funct3 : BitVec 3) (opcode : BitVec 7) :
    fieldFunct3 (layoutB off rs2 rs1 funct3 opcode) = funct3 := by
  unfold fieldFunct3 layoutB
  rw [BitVec.extractLsb'_append_eq_of_le (by omega)]
  rw [BitVec.extractLsb'_append_eq_of_le (by omega)]
  rw [BitVec.extractLsb'_append_eq_of_le (by omega)]
  rw [BitVec.extractLsb'_append_eq_of_add_le (by omega)]
  simp

@[simp] theorem fieldRs1_layoutB (off : BitVec 13) (rs2 rs1 : RegIdx) (funct3 : BitVec 3) (opcode : BitVec 7) :
    fieldRs1 (layoutB off rs2 rs1 funct3 opcode) = rs1 := by
  unfold fieldRs1 layoutB
  rw [BitVec.extractLsb'_append_eq_of_le (by omega)]
  rw [BitVec.extractLsb'_append_eq_of_le (by omega)]
  rw [BitVec.extractLsb'_append_eq_of_le (by omega)]
  rw [BitVec.extractLsb'_append_eq_of_le (by omega)]
  rw [BitVec.extractLsb'_append_eq_of_add_le (by omega)]
  simp [regField]

@[simp] theorem fieldRs2_layoutB (off : BitVec 13) (rs2 rs1 : RegIdx) (funct3 : BitVec 3) (opcode : BitVec 7) :
    fieldRs2 (layoutB off rs2 rs1 funct3 opcode) = rs2 := by
  unfold fieldRs2 layoutB
  rw [BitVec.extractLsb'_append_eq_of_le (by omega)]
  rw [BitVec.extractLsb'_append_eq_of_le (by omega)]
  rw [BitVec.extractLsb'_append_eq_of_le (by omega)]
  rw [BitVec.extractLsb'_append_eq_of_le (by omega)]
  rw [BitVec.extractLsb'_append_eq_of_le (by omega)]
  rw [BitVec.extractLsb'_append_eq_of_add_le (by omega)]
  simp [regField]

@[simp] theorem fieldOpcode_layoutU (imm : BitVec 20) (rd : RegIdx) (opcode : BitVec 7) :
    fieldOpcode (layoutU imm rd opcode) = opcode := by
  unfold fieldOpcode layoutU
  rw [BitVec.extractLsb'_append_eq_of_add_le (by omega)]
  simp

@[simp] theorem fieldRd_layoutU (imm : BitVec 20) (rd : RegIdx) (opcode : BitVec 7) :
    fieldRd (layoutU imm rd opcode) = rd := by
  unfold fieldRd layoutU
  rw [BitVec.extractLsb'_append_eq_of_le (by omega)]
  rw [BitVec.extractLsb'_append_eq_of_add_le (by omega)]
  simp [regField]

@[simp] theorem fieldImmU_layoutU (imm : BitVec 20) (rd : RegIdx) (opcode : BitVec 7) :
    fieldImmU (layoutU imm rd opcode) = imm := by
  unfold fieldImmU layoutU
  rw [BitVec.extractLsb'_append_eq_of_le (by omega)]
  rw [BitVec.extractLsb'_append_eq_of_le (by omega)]
  simp

@[simp] theorem fieldOpcode_layoutJ (off : BitVec 21) (rd : RegIdx) (opcode : BitVec 7) :
    fieldOpcode (layoutJ off rd opcode) = opcode := by
  unfold fieldOpcode layoutJ
  rw [BitVec.extractLsb'_append_eq_of_add_le (by omega)]
  simp

@[simp] theorem fieldRd_layoutJ (off : BitVec 21) (rd : RegIdx) (opcode : BitVec 7) :
    fieldRd (layoutJ off rd opcode) = rd := by
  unfold fieldRd layoutJ
  rw [BitVec.extractLsb'_append_eq_of_le (by omega)]
  rw [BitVec.extractLsb'_append_eq_of_add_le (by omega)]
  simp [regField]
theorem layoutS_hi (imm : BitVec 12) (rs2 rs1 : RegIdx) (funct3 : BitVec 3) (opcode : BitVec 7) :
    (layoutS imm rs2 rs1 funct3 opcode).extractLsb' 25 7 = imm.extractLsb' 5 7 := by
  unfold layoutS
  rw [BitVec.extractLsb'_append_eq_of_le (by omega)]
  rw [BitVec.extractLsb'_append_eq_of_le (by omega)]
  rw [BitVec.extractLsb'_append_eq_of_le (by omega)]
  rw [BitVec.extractLsb'_append_eq_of_le (by omega)]
  rw [BitVec.extractLsb'_append_eq_of_le (by omega)]
  simp

theorem layoutS_lo (imm : BitVec 12) (rs2 rs1 : RegIdx) (funct3 : BitVec 3) (opcode : BitVec 7) :
    (layoutS imm rs2 rs1 funct3 opcode).extractLsb' 7 5 = imm.extractLsb' 0 5 := by
  unfold layoutS
  rw [BitVec.extractLsb'_append_eq_of_le (by omega)]
  rw [BitVec.extractLsb'_append_eq_of_add_le (by omega)]
  simp

@[simp] theorem fieldImmS_layoutS (imm : BitVec 12) (rs2 rs1 : RegIdx) (funct3 : BitVec 3) (opcode : BitVec 7) :
    fieldImmS (layoutS imm rs2 rs1 funct3 opcode) = imm := by
  unfold fieldImmS
  rw [layoutS_hi, layoutS_lo, BitVec.extractLsb'_append_extractLsb'_eq_extractLsb' (by omega)]
  simp

theorem layoutB_off12 (off : BitVec 13) (rs2 rs1 : RegIdx) (funct3 : BitVec 3) (opcode : BitVec 7) :
    (layoutB off rs2 rs1 funct3 opcode).extractLsb' 31 1 = off.extractLsb' 12 1 := by
  unfold layoutB
  rw [BitVec.extractLsb'_append_eq_of_le (by omega)]
  rw [BitVec.extractLsb'_append_eq_of_le (by omega)]
  rw [BitVec.extractLsb'_append_eq_of_le (by omega)]
  rw [BitVec.extractLsb'_append_eq_of_le (by omega)]
  rw [BitVec.extractLsb'_append_eq_of_le (by omega)]
  rw [BitVec.extractLsb'_append_eq_of_le (by omega)]
  rw [BitVec.extractLsb'_append_eq_of_le (by omega)]
  simp

theorem layoutB_off11 (off : BitVec 13) (rs2 rs1 : RegIdx) (funct3 : BitVec 3) (opcode : BitVec 7) :
    (layoutB off rs2 rs1 funct3 opcode).extractLsb' 7 1 = off.extractLsb' 11 1 := by
  unfold layoutB
  rw [BitVec.extractLsb'_append_eq_of_le (by omega)]
  rw [BitVec.extractLsb'_append_eq_of_add_le (by omega)]
  simp

theorem layoutB_off10_5 (off : BitVec 13) (rs2 rs1 : RegIdx) (funct3 : BitVec 3) (opcode : BitVec 7) :
    (layoutB off rs2 rs1 funct3 opcode).extractLsb' 25 6 = off.extractLsb' 5 6 := by
  unfold layoutB
  rw [BitVec.extractLsb'_append_eq_of_le (by omega)]
  rw [BitVec.extractLsb'_append_eq_of_le (by omega)]
  rw [BitVec.extractLsb'_append_eq_of_le (by omega)]
  rw [BitVec.extractLsb'_append_eq_of_le (by omega)]
  rw [BitVec.extractLsb'_append_eq_of_le (by omega)]
  rw [BitVec.extractLsb'_append_eq_of_le (by omega)]
  rw [BitVec.extractLsb'_append_eq_of_add_le (by omega)]
  simp

theorem layoutB_off4_1 (off : BitVec 13) (rs2 rs1 : RegIdx) (funct3 : BitVec 3) (opcode : BitVec 7) :
    (layoutB off rs2 rs1 funct3 opcode).extractLsb' 8 4 = off.extractLsb' 1 4 := by
  unfold layoutB
  rw [BitVec.extractLsb'_append_eq_of_le (by omega)]
  rw [BitVec.extractLsb'_append_eq_of_le (by omega)]
  rw [BitVec.extractLsb'_append_eq_of_add_le (by omega)]
  simp

/-- Bit 0 of the offset is the one bit the B format does not store. -/
theorem fieldImmB_layoutB (off : BitVec 13) (rs2 rs1 : RegIdx) (funct3 : BitVec 3) (opcode : BitVec 7)
    (h : branchOffsetEven off = true) : fieldImmB (layoutB off rs2 rs1 funct3 opcode) = off := by
  have h0 : off.extractLsb' 0 1 = 0#1 := by simpa [branchOffsetEven] using h
  unfold fieldImmB
  rw [layoutB_off12, layoutB_off11, layoutB_off10_5, layoutB_off4_1, ← h0]
  iterate 4 rw [BitVec.extractLsb'_append_extractLsb'_eq_extractLsb' (by omega)]
  simp

theorem layoutJ_off20 (off : BitVec 21) (rd : RegIdx) (opcode : BitVec 7) :
    (layoutJ off rd opcode).extractLsb' 31 1 = off.extractLsb' 20 1 := by
  unfold layoutJ
  rw [BitVec.extractLsb'_append_eq_of_le (by omega)]
  rw [BitVec.extractLsb'_append_eq_of_le (by omega)]
  rw [BitVec.extractLsb'_append_eq_of_le (by omega)]
  rw [BitVec.extractLsb'_append_eq_of_le (by omega)]
  rw [BitVec.extractLsb'_append_eq_of_le (by omega)]
  simp

theorem layoutJ_off19_12 (off : BitVec 21) (rd : RegIdx) (opcode : BitVec 7) :
    (layoutJ off rd opcode).extractLsb' 12 8 = off.extractLsb' 12 8 := by
  unfold layoutJ
  rw [BitVec.extractLsb'_append_eq_of_le (by omega)]
  rw [BitVec.extractLsb'_append_eq_of_le (by omega)]
  rw [BitVec.extractLsb'_append_eq_of_add_le (by omega)]
  simp

theorem layoutJ_off11 (off : BitVec 21) (rd : RegIdx) (opcode : BitVec 7) :
    (layoutJ off rd opcode).extractLsb' 20 1 = off.extractLsb' 11 1 := by
  unfold layoutJ
  rw [BitVec.extractLsb'_append_eq_of_le (by omega)]
  rw [BitVec.extractLsb'_append_eq_of_le (by omega)]
  rw [BitVec.extractLsb'_append_eq_of_le (by omega)]
  rw [BitVec.extractLsb'_append_eq_of_add_le (by omega)]
  simp

theorem layoutJ_off10_1 (off : BitVec 21) (rd : RegIdx) (opcode : BitVec 7) :
    (layoutJ off rd opcode).extractLsb' 21 10 = off.extractLsb' 1 10 := by
  unfold layoutJ
  rw [BitVec.extractLsb'_append_eq_of_le (by omega)]
  rw [BitVec.extractLsb'_append_eq_of_le (by omega)]
  rw [BitVec.extractLsb'_append_eq_of_le (by omega)]
  rw [BitVec.extractLsb'_append_eq_of_le (by omega)]
  rw [BitVec.extractLsb'_append_eq_of_add_le (by omega)]
  simp

/-- Bit 0 of the offset is the one bit the J format does not store. -/
theorem fieldImmJ_layoutJ (off : BitVec 21) (rd : RegIdx) (opcode : BitVec 7) (h : jalOffsetEven off = true) :
    fieldImmJ (layoutJ off rd opcode) = off := by
  have h0 : off.extractLsb' 0 1 = 0#1 := by simpa [jalOffsetEven] using h
  unfold fieldImmJ
  rw [layoutJ_off20, layoutJ_off19_12, layoutJ_off11, layoutJ_off10_1, ← h0]
  iterate 4 rw [BitVec.extractLsb'_append_extractLsb'_eq_extractLsb' (by omega)]
  simp

/-! ## A word is the layout of its fields -/

theorem regField_toFin (b : BitVec 5) : regField b.toFin = b := rfl

theorem layoutR_fields (w : Word) : layoutR (fieldFunct7 w) (fieldRs2 w) (fieldRs1 w) (fieldFunct3 w) (fieldRd w) (fieldOpcode w) = w := by
  unfold layoutR fieldFunct7 fieldFunct3 fieldOpcode
  simp only [fieldRd, fieldRs1, fieldRs2, regField_toFin]
  iterate 5 rw [BitVec.extractLsb'_append_extractLsb'_eq_extractLsb' (by omega)]
  simp

theorem layoutI_fields (w : Word) : layoutI (fieldImmI w) (fieldRs1 w) (fieldFunct3 w) (fieldRd w) (fieldOpcode w) = w := by
  unfold layoutI fieldImmI fieldFunct3 fieldOpcode
  simp only [fieldRd, fieldRs1, regField_toFin]
  iterate 4 rw [BitVec.extractLsb'_append_extractLsb'_eq_extractLsb' (by omega)]
  simp

theorem layoutShift_fields (w : Word) : layoutShift (fieldFunct7 w) (fieldShamt w) (fieldRs1 w) (fieldFunct3 w) (fieldRd w) (fieldOpcode w) = w := by
  unfold layoutShift fieldFunct7 fieldShamt fieldFunct3 fieldOpcode
  simp only [fieldRd, fieldRs1, regField_toFin]
  iterate 5 rw [BitVec.extractLsb'_append_extractLsb'_eq_extractLsb' (by omega)]
  simp

theorem layoutU_fields (w : Word) : layoutU (fieldImmU w) (fieldRd w) (fieldOpcode w) = w := by
  unfold layoutU fieldImmU fieldOpcode
  simp only [fieldRd, regField_toFin]
  iterate 2 rw [BitVec.extractLsb'_append_extractLsb'_eq_extractLsb' (by omega)]
  simp

theorem fieldImmS_hi (w : Word) : (fieldImmS w).extractLsb' 5 7 = w.extractLsb' 25 7 := by
  unfold fieldImmS
  rw [BitVec.extractLsb'_append_eq_of_le (by omega)]
  simp

theorem fieldImmS_lo (w : Word) : (fieldImmS w).extractLsb' 0 5 = w.extractLsb' 7 5 := by
  unfold fieldImmS
  rw [BitVec.extractLsb'_append_eq_of_add_le (by omega)]
  simp

theorem layoutS_fields (w : Word) :
    layoutS (fieldImmS w) (fieldRs2 w) (fieldRs1 w) (fieldFunct3 w) (fieldOpcode w) = w := by
  unfold layoutS fieldFunct3 fieldOpcode
  simp only [fieldRs1, fieldRs2, regField_toFin, fieldImmS_hi, fieldImmS_lo]
  iterate 5 rw [BitVec.extractLsb'_append_extractLsb'_eq_extractLsb' (by omega)]
  simp

theorem fieldImmB_off12 (w : Word) : (fieldImmB w).extractLsb' 12 1 = w.extractLsb' 31 1 := by
  unfold fieldImmB
  rw [BitVec.extractLsb'_append_eq_of_le (by omega)]
  rw [BitVec.extractLsb'_append_eq_of_le (by omega)]
  rw [BitVec.extractLsb'_append_eq_of_le (by omega)]
  rw [BitVec.extractLsb'_append_eq_of_le (by omega)]
  simp

theorem fieldImmB_off11 (w : Word) : (fieldImmB w).extractLsb' 11 1 = w.extractLsb' 7 1 := by
  unfold fieldImmB
  rw [BitVec.extractLsb'_append_eq_of_le (by omega)]
  rw [BitVec.extractLsb'_append_eq_of_le (by omega)]
  rw [BitVec.extractLsb'_append_eq_of_le (by omega)]
  rw [BitVec.extractLsb'_append_eq_of_add_le (by omega)]
  simp

theorem fieldImmB_off5 (w : Word) : (fieldImmB w).extractLsb' 5 6 = w.extractLsb' 25 6 := by
  unfold fieldImmB
  rw [BitVec.extractLsb'_append_eq_of_le (by omega)]
  rw [BitVec.extractLsb'_append_eq_of_le (by omega)]
  rw [BitVec.extractLsb'_append_eq_of_add_le (by omega)]
  simp

theorem fieldImmB_off1 (w : Word) : (fieldImmB w).extractLsb' 1 4 = w.extractLsb' 8 4 := by
  unfold fieldImmB
  rw [BitVec.extractLsb'_append_eq_of_le (by omega)]
  rw [BitVec.extractLsb'_append_eq_of_add_le (by omega)]
  simp

theorem layoutB_fields (w : Word) :
    layoutB (fieldImmB w) (fieldRs2 w) (fieldRs1 w) (fieldFunct3 w) (fieldOpcode w) = w := by
  unfold layoutB fieldFunct3 fieldOpcode
  simp only [fieldRs1, fieldRs2, regField_toFin, fieldImmB_off12, fieldImmB_off11, fieldImmB_off5, fieldImmB_off1]
  iterate 7 rw [BitVec.extractLsb'_append_extractLsb'_eq_extractLsb' (by omega)]
  simp

theorem fieldImmJ_off20 (w : Word) : (fieldImmJ w).extractLsb' 20 1 = w.extractLsb' 31 1 := by
  unfold fieldImmJ
  rw [BitVec.extractLsb'_append_eq_of_le (by omega)]
  rw [BitVec.extractLsb'_append_eq_of_le (by omega)]
  rw [BitVec.extractLsb'_append_eq_of_le (by omega)]
  rw [BitVec.extractLsb'_append_eq_of_le (by omega)]
  simp

theorem fieldImmJ_off12 (w : Word) : (fieldImmJ w).extractLsb' 12 8 = w.extractLsb' 12 8 := by
  unfold fieldImmJ
  rw [BitVec.extractLsb'_append_eq_of_le (by omega)]
  rw [BitVec.extractLsb'_append_eq_of_le (by omega)]
  rw [BitVec.extractLsb'_append_eq_of_le (by omega)]
  rw [BitVec.extractLsb'_append_eq_of_add_le (by omega)]
  simp

theorem fieldImmJ_off11 (w : Word) : (fieldImmJ w).extractLsb' 11 1 = w.extractLsb' 20 1 := by
  unfold fieldImmJ
  rw [BitVec.extractLsb'_append_eq_of_le (by omega)]
  rw [BitVec.extractLsb'_append_eq_of_le (by omega)]
  rw [BitVec.extractLsb'_append_eq_of_add_le (by omega)]
  simp

theorem fieldImmJ_off1 (w : Word) : (fieldImmJ w).extractLsb' 1 10 = w.extractLsb' 21 10 := by
  unfold fieldImmJ
  rw [BitVec.extractLsb'_append_eq_of_le (by omega)]
  rw [BitVec.extractLsb'_append_eq_of_add_le (by omega)]
  simp

theorem layoutJ_fields (w : Word) : layoutJ (fieldImmJ w) (fieldRd w) (fieldOpcode w) = w := by
  unfold layoutJ fieldOpcode
  simp only [fieldRd, regField_toFin, fieldImmJ_off20, fieldImmJ_off12, fieldImmJ_off11, fieldImmJ_off1]
  iterate 5 rw [BitVec.extractLsb'_append_extractLsb'_eq_extractLsb' (by omega)]
  simp

/-- Offsets that the decoder reads have bit 0 equal to 0. -/
theorem fieldImmB_even (w : Word) : branchOffsetEven (fieldImmB w) = true := by
  unfold branchOffsetEven fieldImmB
  rw [BitVec.extractLsb'_append_eq_of_add_le (by omega)]
  simp

theorem fieldImmJ_even (w : Word) : jalOffsetEven (fieldImmJ w) = true := by
  unfold jalOffsetEven fieldImmJ
  rw [BitVec.extractLsb'_append_eq_of_add_le (by omega)]
  simp

end Sys2Proof
end

