-- ==== Sys2Proof/Laws/PerInstr.lean ====
section
/-! SUPPORT. Every encoded instruction lies under its own row of the match and mask table (30_encoding.md rule R84), one
lemma per constructor. -/

namespace Sys2Proof

theorem layoutR_mask (funct7 : BitVec 7) (rs2 rs1 : RegIdx) (funct3 : BitVec 3) (rd : RegIdx) (opcode : BitVec 7) :
    layoutR funct7 rs2 rs1 funct3 rd opcode &&& 0xFE00707F#32 = layoutR funct7 0 0 funct3 0 opcode := by
  have hm : (0xFE00707F#32 : Word) = (BitVec.allOnes 7 ++ 0#5 ++ 0#5 ++ BitVec.allOnes 3 ++ 0#5 ++ BitVec.allOnes 7 : BitVec _) := by decide
  rw [hm]
  unfold layoutR
  iterate 5 rw [BitVec.and_append]
  simp only [BitVec.and_allOnes, BitVec.and_zero]
  rfl

theorem layoutI_mask (imm : BitVec 12) (rs1 : RegIdx) (funct3 : BitVec 3) (rd : RegIdx) (opcode : BitVec 7) :
    layoutI imm rs1 funct3 rd opcode &&& 0x0000707F#32 = layoutI 0 0 funct3 0 opcode := by
  have hm : (0x0000707F#32 : Word) = (0#12 ++ 0#5 ++ BitVec.allOnes 3 ++ 0#5 ++ BitVec.allOnes 7 : BitVec _) := by decide
  rw [hm]
  unfold layoutI
  iterate 4 rw [BitVec.and_append]
  simp only [BitVec.and_allOnes, BitVec.and_zero]
  rfl

theorem layoutShift_mask (upper : BitVec 7) (shamt : BitVec 5) (rs1 : RegIdx) (funct3 : BitVec 3) (rd : RegIdx) (opcode : BitVec 7) :
    layoutShift upper shamt rs1 funct3 rd opcode &&& 0xFE00707F#32 = layoutShift upper 0 0 funct3 0 opcode := by
  have hm : (0xFE00707F#32 : Word) = (BitVec.allOnes 7 ++ 0#5 ++ 0#5 ++ BitVec.allOnes 3 ++ 0#5 ++ BitVec.allOnes 7 : BitVec _) := by decide
  rw [hm]
  unfold layoutShift
  iterate 5 rw [BitVec.and_append]
  simp only [BitVec.and_allOnes, BitVec.and_zero]
  rfl

theorem layoutS_mask (imm : BitVec 12) (rs2 rs1 : RegIdx) (funct3 : BitVec 3) (opcode : BitVec 7) :
    layoutS imm rs2 rs1 funct3 opcode &&& 0x0000707F#32 = layoutS 0 0 0 funct3 opcode := by
  have hm : (0x0000707F#32 : Word) = (0#7 ++ 0#5 ++ 0#5 ++ BitVec.allOnes 3 ++ 0#5 ++ BitVec.allOnes 7 : BitVec _) := by decide
  rw [hm]
  unfold layoutS
  iterate 5 rw [BitVec.and_append]
  simp only [BitVec.and_allOnes, BitVec.and_zero]
  rfl

theorem layoutB_mask (off : BitVec 13) (rs2 rs1 : RegIdx) (funct3 : BitVec 3) (opcode : BitVec 7) :
    layoutB off rs2 rs1 funct3 opcode &&& 0x0000707F#32 = layoutB 0 0 0 funct3 opcode := by
  have hm : (0x0000707F#32 : Word) = (0#1 ++ 0#6 ++ 0#5 ++ 0#5 ++ BitVec.allOnes 3 ++ 0#4 ++ 0#1 ++ BitVec.allOnes 7 : BitVec _) := by decide
  rw [hm]
  unfold layoutB
  iterate 7 rw [BitVec.and_append]
  simp only [BitVec.and_allOnes, BitVec.and_zero]
  rfl

theorem layoutU_mask (imm : BitVec 20) (rd : RegIdx) (opcode : BitVec 7) :
    layoutU imm rd opcode &&& 0x0000007F#32 = layoutU 0 0 opcode := by
  have hm : (0x0000007F#32 : Word) = (0#20 ++ 0#5 ++ BitVec.allOnes 7 : BitVec _) := by decide
  rw [hm]
  unfold layoutU
  iterate 2 rw [BitVec.and_append]
  simp only [BitVec.and_allOnes, BitVec.and_zero]
  rfl

theorem layoutJ_mask (off : BitVec 21) (rd : RegIdx) (opcode : BitVec 7) :
    layoutJ off rd opcode &&& 0x0000007F#32 = layoutJ 0 0 opcode := by
  have hm : (0x0000007F#32 : Word) = (0#1 ++ 0#10 ++ 0#1 ++ 0#8 ++ 0#5 ++ BitVec.allOnes 7 : BitVec _) := by decide
  rw [hm]
  unfold layoutJ
  iterate 5 rw [BitVec.and_append]
  simp only [BitVec.and_allOnes, BitVec.and_zero]
  rfl

/-- The encoding of the instruction in any configuration, under the mask of its row, is the match of its row. -/
structure LiesUnderItsRow (i : Instr) : Prop where
  encode_mask : ∀ c : Config, encode c i &&& (tableRow c i).1 = (tableRow c i).2

/-- Every encoding of the instruction lies under its own row. -/
def Laws.MatchMask.Statement (i : Instr) : Prop := LiesUnderItsRow i

theorem Laws.MatchMask.lui (rd imm) : Laws.MatchMask.Statement (.lui rd imm) :=
  ⟨fun _ => (layoutU_mask _ _ _).trans rfl⟩

theorem Laws.MatchMask.auipc (rd imm) : Laws.MatchMask.Statement (.auipc rd imm) :=
  ⟨fun _ => (layoutU_mask _ _ _).trans rfl⟩

theorem Laws.MatchMask.add (rd rs1 rs2) : Laws.MatchMask.Statement (.add rd rs1 rs2) :=
  ⟨fun _ => (layoutR_mask _ _ _ _ _ _).trans rfl⟩

theorem Laws.MatchMask.addi (rd rs1 imm) : Laws.MatchMask.Statement (.addi rd rs1 imm) :=
  ⟨fun _ => (layoutI_mask _ _ _ _ _).trans rfl⟩

theorem Laws.MatchMask.sub (rd rs1 rs2) : Laws.MatchMask.Statement (.sub rd rs1 rs2) :=
  ⟨fun _ => (layoutR_mask _ _ _ _ _ _).trans rfl⟩

theorem Laws.MatchMask.mul (rd rs1 rs2) : Laws.MatchMask.Statement (.mul rd rs1 rs2) :=
  ⟨fun _ => (layoutR_mask _ _ _ _ _ _).trans rfl⟩

theorem Laws.MatchMask.mulh (rd rs1 rs2) : Laws.MatchMask.Statement (.mulh rd rs1 rs2) :=
  ⟨fun _ => (layoutR_mask _ _ _ _ _ _).trans rfl⟩

theorem Laws.MatchMask.mulhsu (rd rs1 rs2) : Laws.MatchMask.Statement (.mulhsu rd rs1 rs2) :=
  ⟨fun _ => (layoutR_mask _ _ _ _ _ _).trans rfl⟩

theorem Laws.MatchMask.mulhu (rd rs1 rs2) : Laws.MatchMask.Statement (.mulhu rd rs1 rs2) :=
  ⟨fun _ => (layoutR_mask _ _ _ _ _ _).trans rfl⟩

theorem Laws.MatchMask.div (rd rs1 rs2) : Laws.MatchMask.Statement (.div rd rs1 rs2) :=
  ⟨fun _ => (layoutR_mask _ _ _ _ _ _).trans rfl⟩

theorem Laws.MatchMask.divu (rd rs1 rs2) : Laws.MatchMask.Statement (.divu rd rs1 rs2) :=
  ⟨fun _ => (layoutR_mask _ _ _ _ _ _).trans rfl⟩

theorem Laws.MatchMask.rem (rd rs1 rs2) : Laws.MatchMask.Statement (.rem rd rs1 rs2) :=
  ⟨fun _ => (layoutR_mask _ _ _ _ _ _).trans rfl⟩

theorem Laws.MatchMask.remu (rd rs1 rs2) : Laws.MatchMask.Statement (.remu rd rs1 rs2) :=
  ⟨fun _ => (layoutR_mask _ _ _ _ _ _).trans rfl⟩

theorem Laws.MatchMask.xor (rd rs1 rs2) : Laws.MatchMask.Statement (.xor rd rs1 rs2) :=
  ⟨fun _ => (layoutR_mask _ _ _ _ _ _).trans rfl⟩

theorem Laws.MatchMask.xori (rd rs1 imm) : Laws.MatchMask.Statement (.xori rd rs1 imm) :=
  ⟨fun _ => (layoutI_mask _ _ _ _ _).trans rfl⟩

theorem Laws.MatchMask.or (rd rs1 rs2) : Laws.MatchMask.Statement (.or rd rs1 rs2) :=
  ⟨fun _ => (layoutR_mask _ _ _ _ _ _).trans rfl⟩

theorem Laws.MatchMask.ori (rd rs1 imm) : Laws.MatchMask.Statement (.ori rd rs1 imm) :=
  ⟨fun _ => (layoutI_mask _ _ _ _ _).trans rfl⟩

theorem Laws.MatchMask.and (rd rs1 rs2) : Laws.MatchMask.Statement (.and rd rs1 rs2) :=
  ⟨fun _ => (layoutR_mask _ _ _ _ _ _).trans rfl⟩

theorem Laws.MatchMask.andi (rd rs1 imm) : Laws.MatchMask.Statement (.andi rd rs1 imm) :=
  ⟨fun _ => (layoutI_mask _ _ _ _ _).trans rfl⟩

theorem Laws.MatchMask.sll (rd rs1 rs2) : Laws.MatchMask.Statement (.sll rd rs1 rs2) :=
  ⟨fun _ => (layoutR_mask _ _ _ _ _ _).trans rfl⟩

theorem Laws.MatchMask.slli (rd rs1 shamt) : Laws.MatchMask.Statement (.slli rd rs1 shamt) :=
  ⟨fun _ => (layoutShift_mask _ _ _ _ _ _).trans rfl⟩

theorem Laws.MatchMask.srl (rd rs1 rs2) : Laws.MatchMask.Statement (.srl rd rs1 rs2) :=
  ⟨fun _ => (layoutR_mask _ _ _ _ _ _).trans rfl⟩

theorem Laws.MatchMask.srli (rd rs1 shamt) : Laws.MatchMask.Statement (.srli rd rs1 shamt) :=
  ⟨fun _ => (layoutShift_mask _ _ _ _ _ _).trans rfl⟩

theorem Laws.MatchMask.sra (rd rs1 rs2) : Laws.MatchMask.Statement (.sra rd rs1 rs2) :=
  ⟨fun _ => (layoutR_mask _ _ _ _ _ _).trans rfl⟩

theorem Laws.MatchMask.srai (rd rs1 shamt) : Laws.MatchMask.Statement (.srai rd rs1 shamt) :=
  ⟨fun _ => (layoutShift_mask _ _ _ _ _ _).trans rfl⟩

theorem Laws.MatchMask.slt (rd rs1 rs2) : Laws.MatchMask.Statement (.slt rd rs1 rs2) :=
  ⟨fun _ => (layoutR_mask _ _ _ _ _ _).trans rfl⟩

theorem Laws.MatchMask.slti (rd rs1 imm) : Laws.MatchMask.Statement (.slti rd rs1 imm) :=
  ⟨fun _ => (layoutI_mask _ _ _ _ _).trans rfl⟩

theorem Laws.MatchMask.sltiu (rd rs1 imm) : Laws.MatchMask.Statement (.sltiu rd rs1 imm) :=
  ⟨fun _ => (layoutI_mask _ _ _ _ _).trans rfl⟩

theorem Laws.MatchMask.sltu (rd rs1 rs2) : Laws.MatchMask.Statement (.sltu rd rs1 rs2) :=
  ⟨fun _ => (layoutR_mask _ _ _ _ _ _).trans rfl⟩

theorem Laws.MatchMask.jal (rd off) : Laws.MatchMask.Statement (.jal rd off) :=
  ⟨fun _ => (layoutJ_mask _ _ _).trans rfl⟩

theorem Laws.MatchMask.jalr (rd rs1 imm) : Laws.MatchMask.Statement (.jalr rd rs1 imm) :=
  ⟨fun _ => (layoutI_mask _ _ _ _ _).trans rfl⟩

theorem Laws.MatchMask.beq (rs1 rs2 off) : Laws.MatchMask.Statement (.beq rs1 rs2 off) :=
  ⟨fun _ => (layoutB_mask _ _ _ _ _).trans rfl⟩

theorem Laws.MatchMask.bne (rs1 rs2 off) : Laws.MatchMask.Statement (.bne rs1 rs2 off) :=
  ⟨fun _ => (layoutB_mask _ _ _ _ _).trans rfl⟩

theorem Laws.MatchMask.blt (rs1 rs2 off) : Laws.MatchMask.Statement (.blt rs1 rs2 off) :=
  ⟨fun _ => (layoutB_mask _ _ _ _ _).trans rfl⟩

theorem Laws.MatchMask.bge (rs1 rs2 off) : Laws.MatchMask.Statement (.bge rs1 rs2 off) :=
  ⟨fun _ => (layoutB_mask _ _ _ _ _).trans rfl⟩

theorem Laws.MatchMask.bltu (rs1 rs2 off) : Laws.MatchMask.Statement (.bltu rs1 rs2 off) :=
  ⟨fun _ => (layoutB_mask _ _ _ _ _).trans rfl⟩

theorem Laws.MatchMask.bgeu (rs1 rs2 off) : Laws.MatchMask.Statement (.bgeu rs1 rs2 off) :=
  ⟨fun _ => (layoutB_mask _ _ _ _ _).trans rfl⟩

theorem Laws.MatchMask.lb (rd rs1 imm) : Laws.MatchMask.Statement (.lb rd rs1 imm) :=
  ⟨fun _ => (layoutI_mask _ _ _ _ _).trans rfl⟩

theorem Laws.MatchMask.lh (rd rs1 imm) : Laws.MatchMask.Statement (.lh rd rs1 imm) :=
  ⟨fun _ => (layoutI_mask _ _ _ _ _).trans rfl⟩

theorem Laws.MatchMask.lbu (rd rs1 imm) : Laws.MatchMask.Statement (.lbu rd rs1 imm) :=
  ⟨fun _ => (layoutI_mask _ _ _ _ _).trans rfl⟩

theorem Laws.MatchMask.lhu (rd rs1 imm) : Laws.MatchMask.Statement (.lhu rd rs1 imm) :=
  ⟨fun _ => (layoutI_mask _ _ _ _ _).trans rfl⟩

theorem Laws.MatchMask.lw (rd rs1 imm) : Laws.MatchMask.Statement (.lw rd rs1 imm) :=
  ⟨fun _ => (layoutI_mask _ _ _ _ _).trans rfl⟩

theorem Laws.MatchMask.sb (rs1 rs2 imm) : Laws.MatchMask.Statement (.sb rs1 rs2 imm) :=
  ⟨fun _ => (layoutS_mask _ _ _ _ _).trans rfl⟩

theorem Laws.MatchMask.sh (rs1 rs2 imm) : Laws.MatchMask.Statement (.sh rs1 rs2 imm) :=
  ⟨fun _ => (layoutS_mask _ _ _ _ _).trans rfl⟩

theorem Laws.MatchMask.sw (rs1 rs2 imm) : Laws.MatchMask.Statement (.sw rs1 rs2 imm) :=
  ⟨fun _ => (layoutS_mask _ _ _ _ _).trans rfl⟩

end Sys2Proof
end

