-- ==== Sys2Proof/Machine/Run.lean ====
section
/-! DEFINITION. A run as a launch delimits it: 70_reset_and_hazards.md rules R244 to R246. -/

namespace Sys2Proof.Machine

/-- The state is final: `pc == HALT_PC` (rule R244). -/
def State.isFinal (s : State) : Bool := decide (s.pc = s.cfg.haltPc)

/-- How a run with fuel ends (rule R245): out of fuel is neither final nor faulted. -/
inductive RunOutcome where
  | final (s : State)
  | faulted (f : Fault) (s : State)
  | refused (r : Refusal) (s : State)
  | outOfFuel (s : State)
  deriving DecidableEq, Repr

/-- Steps until the state is final, tested before the fetch (rule R244), or a step stops. A stop keeps the state before
the faulting instruction (60_exceptions.md rule R200). -/
def runToHalt : Nat → State → RunOutcome
  | fuel, s =>
    if s.isFinal then .final s
    else
      match fuel with
      | 0 => .outOfFuel s
      | fuel + 1 =>
        match step s with
        | .next t => runToHalt fuel t
        | .fault f => .faulted f s
        | .refused r => .refused r s

end Sys2Proof.Machine
end

