-- ==== Sys2Proof/Safety.lean ====
section
/-! DEFINITION. What counts as a safe run, and the invariant of every state that a run reaches. -/

namespace Sys2Proof

open Sys2Proof.Machine

/-- No run from the state, of whatever length, ends in a fault or a refusal (60_exceptions.md rule R200: a claim takes
"no fault" as part of its conclusion). -/
def Safe (s : State) : Prop :=
  ∀ fuel, (∀ f t, runToHalt fuel s ≠ .faulted f t) ∧ (∀ r t, runToHalt fuel s ≠ .refused r t)

/-- The run from `s` is done in `t` (70_reset_and_hazards.md rule R244). -/
def EndsIn (s t : State) : Prop := ∃ fuel, runToHalt fuel s = .final t

/-- What holds in every state that a run reaches: the pc is a multiple of 4 (10_state.md rule R26), the register that
reads as zero holds zero (rule R22), memory is in its canonical form, and `RESET_PC` and `HALT_PC` are multiples of 4
(70_reset_and_hazards.md rules R240, R244). -/
structure Invariant (s : State) : Prop where
  pc_aligned : isMultipleOf4 s.pc = true
  zero_register : s.cfg.x0Zero = true → s.regs[0] = 0#32
  memory_canonical : Memory.wf s.mem = true
  config_wellFormed : s.cfg.wellFormed = true

end Sys2Proof
end

