-- ==== Sys2Proof/Certificates/Slice0/Obligations.lean ====
section
/-! DEFINITION. The statements for the provers. The predicates of namespace `Sys2Proof.Claims` say in the spec's own terms
what a next state is: registers read through `State.readReg`, memory through `State.byteAt`, integers for the results. -/

namespace Sys2Proof.Claims

open Sys2Proof Sys2Proof.Machine

/-- The register number in bits `lo + 4 : lo` of a word. -/
def regAt (w : Word) (lo : Nat) : RegIdx := (w.extractLsb' lo 5).toFin

/-- `immI`'s 12 bits: `inst[31:20]` (30_encoding.md rule R74). -/
def bitsI (w : Word) : BitVec 12 := w.extractLsb' 20 12

/-- `immS`'s 12 bits (rule R75). -/
def bitsS (w : Word) : BitVec 12 := w.extractLsb' 25 7 ++ w.extractLsb' 7 5

/-- `immB`'s 13 bits (rule R76). -/
def bitsB (w : Word) : BitVec 13 :=
  w.extractLsb' 31 1 ++ w.extractLsb' 7 1 ++ w.extractLsb' 25 6 ++ w.extractLsb' 8 4 ++ 0#1

/-- `immJ`'s 21 bits (rule R78). -/
def bitsJ (w : Word) : BitVec 21 :=
  w.extractLsb' 31 1 ++ w.extractLsb' 12 8 ++ w.extractLsb' 20 1 ++ w.extractLsb' 21 10 ++ 0#1

/-- In every configuration of the kind, every word selected by the mask and match decodes to the instruction built from its
fields. -/
def EncodesWhen (kind : Config → Prop) (mask pattern : Word) (build : Word → Instr) : Prop :=
  ∀ (c : Config) (w : Word), kind c → w &&& mask = pattern → decode c w = .ok (build w)

/-- In every configuration, every word selected by the mask and match decodes to the instruction built from its fields. -/
def Encodes (mask pattern : Word) (build : Word → Instr) : Prop := EncodesWhen (fun _ => True) mask pattern build

/-- The R format with its operands `rd`, `rs1`, `rs2`. -/
def EncodesR (pattern : Word) (build : RegIdx → RegIdx → RegIdx → Instr) : Prop :=
  Encodes 0xFE00707F#32 pattern (fun w => build (regAt w 7) (regAt w 15) (regAt w 20))

/-- The I format with its operands `rd`, `rs1`, `immI`. -/
def EncodesI (pattern : Word) (build : RegIdx → RegIdx → BitVec 12 → Instr) : Prop :=
  Encodes 0x0000707F#32 pattern (fun w => build (regAt w 7) (regAt w 15) (bitsI w))

/-- The shift sub-format with its operands `rd`, `rs1`, `shamt5` (rule R73). -/
def EncodesShift (pattern : Word) (build : RegIdx → RegIdx → BitVec 5 → Instr) : Prop :=
  Encodes 0xFE00707F#32 pattern (fun w => build (regAt w 7) (regAt w 15) (w.extractLsb' 20 5))

/-- The S format with its operands `rs1`, `rs2`, `immS`. -/
def EncodesS (pattern : Word) (build : RegIdx → RegIdx → BitVec 12 → Instr) : Prop :=
  Encodes 0x0000707F#32 pattern (fun w => build (regAt w 15) (regAt w 20) (bitsS w))

/-- The B format with its operands `rs1`, `rs2`, `immB`, in the configurations of the kind. -/
def EncodesB (kind : Config → Prop) (pattern : Word) (build : RegIdx → RegIdx → BitVec 13 → Instr) : Prop :=
  EncodesWhen kind 0x0000707F#32 pattern (fun w => build (regAt w 15) (regAt w 20) (bitsB w))

/-- `JAL_OPCODE`, `BLT_FUNCT3` and `BGEU_FUNCT3` have the values of 00_scope.md rule R8. -/
def EncodingOfR8 (c : Config) : Prop := c.jalOpcode = 0b1101111#7 ∧ c.bltFunct3 = 0b100#3 ∧ c.bgeuFunct3 = 0b111#3

/-- The registers of `t` are those of `s` but for `x[rd] <- v`, which is discarded where register 0 is the constant
zero (10_state.md rule R22). -/
def RegsAfterWrite (s t : State) (rd : RegIdx) (v : Word) : Prop :=
  ∀ r, t.readReg r = if r = rd ∧ ¬ (s.cfg.x0Zero = true ∧ rd = 0) then v else s.readReg r

/-- Every register reads as before. -/
def SameRegs (s t : State) : Prop := ∀ r, t.readReg r = s.readReg r

/-- Every byte of memory, and the configuration, is as before. -/
def SameMemory (s t : State) : Prop := t.cfg = s.cfg ∧ ∀ a, t.byteAt a = s.byteAt a

/-- `x[rd] <- v; pc <- pc + 4`, and nothing else changes. -/
def Writes (s t : State) (rd : RegIdx) (v : Word) : Prop :=
  t.pc = s.pc + 4#32 ∧ RegsAfterWrite s t rd v ∧ SameMemory s t

/-- The instruction completes with `x[rd] <- v; pc <- pc + 4` for a value `v` that meets the condition. -/
def CompletesWith (i : Instr) (s : State) (rd : RegIdx) (value : Word → Prop) : Prop :=
  ∃ t v, exec i s = .next t ∧ value v ∧ Writes s t rd v

/-- The instruction completes with `pc <- target`, and nothing else changes. -/
def GoesTo (i : Instr) (s : State) (target : Word) : Prop :=
  ∃ t, exec i s = .next t ∧ t.pc = target ∧ SameRegs s t ∧ SameMemory s t

/-- The instruction completes with `pc <- target; x[rd] <- pc + 4`, and nothing else changes. -/
def LinksAndGoesTo (i : Instr) (s : State) (rd : RegIdx) (target : Word) : Prop :=
  ∃ t, exec i s = .next t ∧ t.pc = target ∧ RegsAfterWrite s t rd (s.pc + 4#32) ∧ SameMemory s t

/-- The common pseudocode of 46_branch.md for a condition. -/
def Branches (i : Instr) (s : State) (off : BitVec 13) (taken : Prop) : Prop :=
  (¬ taken → GoesTo i s (s.pc + 4#32)) ∧
  (taken → (s.pc + off.signExtend 32).toNat % 4 = 0 → GoesTo i s (s.pc + off.signExtend 32)) ∧
  (taken → (s.pc + off.signExtend 32).toNat % 4 ≠ 0 →
    exec i s = .fault (.misalignedFetch (s.pc + off.signExtend 32)))

/-- `MISALIGNED_DATA` lets an access of `n` bytes at the address through: the address is a multiple of `n`, or misaligned
accesses are split (20_memory.md rule R46). -/
def Permitted (s : State) (addr : Word) (n : Nat) : Prop :=
  s.cfg.misalignedData = .split ∨ addr.toNat % n = 0

/-- A load of `n` bytes at `addr`: the checks in their order, then `x[rd] <- v; pc <- pc + 4`. -/
def Loads (i : Instr) (s : State) (addr : Word) (n : Nat) (rd : RegIdx) (v : Word) : Prop :=
  (Permitted s addr n → admits s.cfg addr n .load = true → CompletesWith i s rd (fun x => x = v)) ∧
  (¬ Permitted s addr n → exec i s = .fault (.misalignedLoad addr)) ∧
  (Permitted s addr n → admits s.cfg addr n .load = false → exec i s = .fault (.accessFault .load addr))

/-- A store of `n` bytes at `addr`, byte `k` being `byte k`: the checks in their order, then the bytes are written and
`pc <- pc + 4`; no register and no other byte changes. -/
def Stores (i : Instr) (s : State) (addr : Word) (n : Nat) (byte : Nat → Byte) : Prop :=
  (Permitted s addr n → admits s.cfg addr n .store = true →
    ∃ t, exec i s = .next t ∧ t.pc = s.pc + 4#32 ∧ SameRegs s t ∧ t.cfg = s.cfg ∧
      (∀ k, k < n → t.byteAt (addr + BitVec.ofNat 32 k) = byte k) ∧
      (∀ a, (∀ k, k < n → a ≠ addr + BitVec.ofNat 32 k) → t.byteAt a = s.byteAt a)) ∧
  (¬ Permitted s addr n → exec i s = .fault (.misalignedStore addr)) ∧
  (Permitted s addr n → admits s.cfg addr n .store = false → exec i s = .fault (.accessFault .store addr))

/-- The halfword in memory at an address, in the configured byte order (20_memory.md rule R44). -/
def halfAt (s : State) (a : Word) : BitVec 16 :=
  if s.cfg.byteOrder = .little then s.byteAt (a + 1#32) ++ s.byteAt a else s.byteAt a ++ s.byteAt (a + 1#32)

/-- The word in memory at an address, in the configured byte order (20_memory.md rule R44). -/
def wordAt (s : State) (a : Word) : Word :=
  if s.cfg.byteOrder = .little then
    s.byteAt (a + 3#32) ++ s.byteAt (a + 2#32) ++ s.byteAt (a + 1#32) ++ s.byteAt a
  else s.byteAt a ++ s.byteAt (a + 1#32) ++ s.byteAt (a + 2#32) ++ s.byteAt (a + 3#32)

/-- Which byte of an `n`-byte value lies `k` addresses above the lowest one. -/
def byteIndex (s : State) (n k : Nat) : Nat := if s.cfg.byteOrder = .little then k else n - 1 - k

/-- `sign(a) * sign(b) * floor(|a| / |b|)`: the quotient rounded toward zero (41_arithmetic.md rule R117). -/
def towardZero (a b : Int) : Int := a.sign * b.sign * ((a.natAbs / b.natAbs : Nat) : Int)

/-- The corner of rule R119 in which the signed quotient does not fit. -/
def Overflows (a b : Word) : Prop := a = 0x80000000#32 ∧ b = 0xFFFFFFFF#32

/-- The branch condition of an instruction holds; false for what is no branch (46_branch.md rules R170 to R175). -/
def takesBranch (i : Instr) (s : State) : Prop :=
  match i with
  | .beq rs1 rs2 _ => s.readReg rs1 = s.readReg rs2
  | .bne rs1 rs2 _ => s.readReg rs1 ≠ s.readReg rs2
  | .blt rs1 rs2 _ => (s.readReg rs1).toInt < (s.readReg rs2).toInt
  | .bge rs1 rs2 _ => (s.readReg rs1).toInt ≥ (s.readReg rs2).toInt
  | .bltu rs1 rs2 _ => (s.readReg rs1).toNat < (s.readReg rs2).toNat
  | .bgeu rs1 rs2 _ => (s.readReg rs1).toNat ≥ (s.readReg rs2).toNat
  | _ => False

/-- The address a control transfer goes to in a state; none for an instruction that goes on to `pc + 4`. -/
def transferTarget (i : Instr) (s : State) : Option Word :=
  match i with
  | .jal _ off => some (s.pc + off.signExtend 32)
  | .jalr _ rs1 imm => some ((s.readReg rs1 + imm.signExtend 32) &&& 0xFFFFFFFE#32)
  | .beq _ _ off | .bne _ _ off | .blt _ _ off | .bge _ _ off | .bltu _ _ off | .bgeu _ _ off =>
      some (s.pc + off.signExtend 32)
  | _ => none

/-- The instruction is JAL or JALR. -/
def isJump (i : Instr) : Prop := (∃ rd off, i = .jal rd off) ∨ ∃ rd rs1 imm, i = .jalr rd rs1 imm

/-- A load's width in bytes and its address in a state. -/
def loadAccess (i : Instr) (s : State) : Option (Nat × Word) :=
  match i with
  | .lb _ rs1 imm | .lbu _ rs1 imm => some (1, loadAddress s rs1 imm)
  | .lh _ rs1 imm | .lhu _ rs1 imm => some (2, loadAddress s rs1 imm)
  | .lw _ rs1 imm => some (4, loadAddress s rs1 imm)
  | _ => none

/-- A store's width in bytes and its address in a state. -/
def storeAccess (i : Instr) (s : State) : Option (Nat × Word) :=
  match i with
  | .sb rs1 _ imm => some (1, storeAddress s rs1 imm)
  | .sh rs1 _ imm => some (2, storeAddress s rs1 imm)
  | .sw rs1 _ imm => some (4, storeAddress s rs1 imm)
  | _ => none

end Sys2Proof.Claims

open Sys2Proof Sys2Proof.Machine Sys2Proof.Claims

/-! ## Encoding (30_encoding.md) -/

/-- The layouts of 30_encoding.md rule R70 and the immediates of rules R74 to R79: the decoder reads back every operand the encoder
wrote, for all 45 instructions, whatever value of `JAL_OPCODE`, `BLT_FUNCT3` and `BGEU_FUNCT3` (rules R81, R85; log 11) leaves no
two instructions on one word. -/
def Obligations.DecodeOfEncodeIsTheInstruction : Prop :=
  ∀ (c : Config) (i : Instr), c.encodingFree = true → i.wellFormed = true → decode c (encode c i) = .ok i

/-- 30_encoding.md rules R70, R84: a word that decodes holds nothing but the instruction, every one of its 32 bits. -/
def Obligations.EncodeOfDecodeIsTheWord : Prop :=
  ∀ (c : Config) (w : Word) (i : Instr), decode c w = .ok i → i.wellFormed = true ∧ encode c i = w

/-- 30_encoding.md rule R84, which the spec marks as derived from its opcode tables: the match and mask table selects the
instruction; no two rows overlap; a word that no row selects is illegal. With the values of 00_scope.md rule R8 (decisions D7, D8
of the spec, log 11) the three rows that a configuration fixes are those the rule prints. -/
def Obligations.DecodeFollowsTheMatchAndMaskTable : Prop :=
  (∀ (c : Config) (i j : Instr), c.encodingFree = true → tableRow c i ≠ tableRow c j →
    ((tableRow c i).1 &&& (tableRow c j).1) &&& ((tableRow c i).2 ^^^ (tableRow c j).2) ≠ 0#32) ∧
  (∀ (c : Config) (w : Word) (i : Instr), c.encodingFree = true → (w &&& (tableRow c i).1 = (tableRow c i).2 ↔
    ∃ j, decode c w = .ok j ∧ tableRow c j = tableRow c i)) ∧
  (∀ (c : Config) (w : Word), c.encodingFree = true →
    ((∀ i : Instr, w &&& (tableRow c i).1 ≠ (tableRow c i).2) ↔ ∃ e, decode c w = .error e)) ∧
  ∀ c : Config, EncodingOfR8 c → c.encodingFree = true ∧
    (∀ rd off, tableRow c (.jal rd off) = (0x0000007F#32, 0x0000006F#32)) ∧
    (∀ rs1 rs2 off, tableRow c (.blt rs1 rs2 off) = (0x0000707F#32, 0x00004063#32)) ∧
    ∀ rs1 rs2 off, tableRow c (.bgeu rs1 rs2 off) = (0x0000707F#32, 0x00007063#32)

/-- 30_encoding.md rules R86, R87 (decisions D5 and D6 of the spec): the shift words whose `inst[31:26]` is wrong or whose
`inst[25]` is 1 are illegal, and the step raises `IllegalInstruction`. -/
def Obligations.WrongShiftImmediatesAreIllegal : Prop :=
  ∀ (w : Word), w.extractLsb' 0 7 = 0b0010011#7 →
    (w.extractLsb' 12 3 = 0b001#3 ∧ (w.extractLsb' 26 6 ≠ 0b000000#6 ∨ w.extractLsb' 25 1 = 1#1) ∨
      w.extractLsb' 12 3 = 0b101#3 ∧
        (w.extractLsb' 26 6 ≠ 0b000000#6 ∧ w.extractLsb' 26 6 ≠ 0b010000#6 ∨ w.extractLsb' 25 1 = 1#1)) →
    (∀ c : Config, ∃ e, decode c w = .error e) ∧
    ∀ s : State, s.pc.toNat % 4 = 0 → admits s.cfg s.pc 4 .fetch = true → s.fetchWord = w →
      step s = .fault (.illegalInstruction w)

/-- 30_encoding.md rules R80, R88, R90 (decisions D5 and D27 of the spec for what is not listed): only the nine opcodes of rule
R80 are defined, and every instruction word ends in `11`. `JAL_OPCODE` has the one value that rule R81 supports (decision D7). -/
def Obligations.OnlyNineOpcodesAreDefined : Prop :=
  ∀ (c : Config) (w : Word) (i : Instr), c.jalOpcode = 0b1101111#7 → decode c w = .ok i →
    w.extractLsb' 0 2 = 0b11#2 ∧
    w.extractLsb' 0 7 ∈ [0b0000011#7, 0b0010011#7, 0b0010111#7, 0b0100011#7, 0b0110011#7, 0b0110111#7, 0b1100011#7,
      0b1100111#7, 0b1101111#7]

/-- One word of each family, written out from the encoding vectors of 95_test_vectors.md section 2, under the configuration of
`State.reset`, whose encoding parameters are those of 00_scope.md rule R8. -/
def Obligations.SampleWordsDecode : Prop :=
  decode Config.initial 0xABCDE2B7#32 = .ok (.lui 5 0xABCDE#20) ∧
  decode Config.initial 0x402081B3#32 = .ok (.sub 3 1 2) ∧
  decode Config.initial 0x5550E193#32 = .ok (.ori 3 1 0x555#12) ∧
  decode Config.initial 0x4040D193#32 = .ok (.srai 3 1 4#5) ∧
  decode Config.initial 0x0010B193#32 = .ok (.sltiu 3 1 1#12) ∧
  decode Config.initial 0x001000EF#32 = .ok (.jal 1 0x800#21) ∧
  decode Config.initial 0x0020E0E3#32 = .ok (.bltu 1 2 0x800#13) ∧
  decode Config.initial 0x7E20CFE3#32 = .ok (.blt 1 2 0xFFE#13) ∧
  decode Config.initial 0x0020F463#32 = .ok (.bgeu 1 2 8#13) ∧
  decode Config.initial 0x80015183#32 = .ok (.lhu 3 2 0x800#12) ∧
  decode Config.initial 0x7BFF2223#32 = .ok (.sw 30 31 0x7A4#12)

/-! ## A step (20_memory.md, 10_state.md) -/

/-- A step is `exec` of the decoded instruction and nothing around it: the meaning itself moves the pc (10_state.md rule R33,
20_memory.md rules R45, R52). The word at the pc is read in the byte order of the configuration: little is what rules R45 and R52
say (decision D2 of the spec), big is the model's own reading (log 8). -/
def Obligations.StepRunsTheDecodedInstruction : Prop :=
  ∀ (s : State) (i : Instr), s.pc.toNat % 4 = 0 → admits s.cfg s.pc 4 .fetch = true →
    decode s.cfg (wordAt s s.pc) = .ok i → step s = exec i s

/-- 30_encoding.md rule R86 and 60_exceptions.md rule R201 (decision D5 of the spec): a word that is none of the 45 instructions
ends the run, whatever its bits. The word at the pc is read in the byte order of the configuration: little is what 20_memory.md
rules R45 and R52 say (decision D2 of the spec), big is the model's own reading (log 8). -/
def Obligations.UndefinedWordsRaiseIllegalInstruction : Prop :=
  ∀ (s : State) (e : Illegal), s.pc.toNat % 4 = 0 → admits s.cfg s.pc 4 .fetch = true →
    decode s.cfg (wordAt s s.pc) = .error e → step s = .fault (.illegalInstruction (wordAt s s.pc))

/-- 20_memory.md rules R45, R48, R52 (decisions D2 and D17 of the spec): the fetch asks `Admit` first, then reads four bytes at
the pc, little-endian. -/
def Obligations.FetchIsCheckedThenReadsFourBytes : Prop :=
  ∀ s : State, s.pc.toNat % 4 = 0 → s.cfg.byteOrder = .little →
    (admits s.cfg s.pc 4 .fetch = false → step s = .fault (.accessFault .fetch s.pc)) ∧
    (admits s.cfg s.pc 4 .fetch = true →
      step s = match decode s.cfg
          (s.byteAt (s.pc + 3#32) ++ s.byteAt (s.pc + 2#32) ++ s.byteAt (s.pc + 1#32) ++ s.byteAt s.pc) with
        | .ok i => exec i s
        | .error _ => .fault (.illegalInstruction
            (s.byteAt (s.pc + 3#32) ++ s.byteAt (s.pc + 2#32) ++ s.byteAt (s.pc + 1#32) ++ s.byteAt s.pc)))

/-- The model's own refusal (log 12, DESIGN CHOICE): a step is refused exactly where the pc is not a multiple of 4, and no
instruction refuses. -/
def Obligations.OnlyAMisalignedPcIsRefused : Prop :=
  (∀ (i : Instr) (s : State) (r : Refusal), exec i s ≠ .refused r) ∧
  ∀ (s : State) (r : Refusal), step s = .refused r ↔ s.pc.toNat % 4 ≠ 0 ∧ r = .pcNotAligned s.pc

/-! ## Registers (10_state.md) -/

/-- 10_state.md rule R22 (decision D1 of the spec, log 7): with `X0_ZERO` true `x[0]` reads zero and writes to it are discarded;
with `X0_ZERO` false register 0 is an ordinary register. -/
def Obligations.RegisterZeroIsConstantOrOrdinary : Prop :=
  ∀ (s : State) (i : RegIdx) (v : Word),
    (s.cfg.x0Zero = true → s.readReg 0 = 0#32 ∧ (s.writeReg i v).readReg 0 = 0#32 ∧
      ∀ r, (s.writeReg 0 v).readReg r = s.readReg r) ∧
    (s.cfg.x0Zero = false → ∀ r, (s.writeReg i v).readReg r = if r = i then v else s.readReg r)

/-! ## Build (40_build.md) -/

/-- 40_build.md rule R100. -/
def Obligations.LuiLoadsTheUpperBits : Prop :=
  Encodes 0x0000007F#32 0x00000037#32 (fun w => .lui (regAt w 7) (w.extractLsb' 12 20)) ∧
  ∀ (rd : RegIdx) (imm : BitVec 20) (s : State),
    CompletesWith (.lui rd imm) s rd (fun v => v.toNat = imm.toNat * 4096)

/-- 40_build.md rule R101. -/
def Obligations.AuipcAddsToItsOwnPc : Prop :=
  Encodes 0x0000007F#32 0x00000017#32 (fun w => .auipc (regAt w 7) (w.extractLsb' 12 20)) ∧
  ∀ (rd : RegIdx) (imm : BitVec 20) (s : State),
    CompletesWith (.auipc rd imm) s rd (fun v => v.toNat = (s.pc.toNat + imm.toNat * 4096) % 2 ^ 32)

/-! ## Arithmetic (41_arithmetic.md) -/

/-- 41_arithmetic.md rule R110. -/
def Obligations.AddWraps : Prop :=
  EncodesR 0x00000033#32 .add ∧
  ∀ (rd rs1 rs2 : RegIdx) (s : State),
    CompletesWith (.add rd rs1 rs2) s rd
      (fun v => v.toNat = ((s.readReg rs1).toNat + (s.readReg rs2).toNat) % 2 ^ 32)

/-- 41_arithmetic.md rule R111: the immediate is read as a signed number. -/
def Obligations.AddiAddsTheSignedImmediate : Prop :=
  EncodesI 0x00000013#32 .addi ∧
  ∀ (rd rs1 : RegIdx) (imm : BitVec 12) (s : State),
    CompletesWith (.addi rd rs1 imm) s rd
      (fun v => (v.toNat : Int) = ((s.readReg rs1).toNat + imm.toInt) % 2 ^ 32)

/-- 41_arithmetic.md rule R112. -/
def Obligations.SubWraps : Prop :=
  EncodesR 0x40000033#32 .sub ∧
  ∀ (rd rs1 rs2 : RegIdx) (s : State),
    CompletesWith (.sub rd rs1 rs2) s rd
      (fun v => (v.toNat : Int) = (((s.readReg rs1).toNat : Int) - (s.readReg rs2).toNat) % 2 ^ 32)

/-- 41_arithmetic.md rule R113: the low half is the same for the signed and the unsigned reading of the operands. -/
def Obligations.MulKeepsTheLowHalf : Prop :=
  EncodesR 0x02000033#32 .mul ∧
  ∀ (rd rs1 rs2 : RegIdx) (s : State),
    CompletesWith (.mul rd rs1 rs2) s rd (fun v =>
      v.toNat = ((s.readReg rs1).toNat * (s.readReg rs2).toNat) % 2 ^ 32 ∧
      (v.toNat : Int) = ((s.readReg rs1).toInt * (s.readReg rs2).toInt) % 2 ^ 32)

/-- 41_arithmetic.md rule R114: `floor(p / 2^32) mod 2^32` of the signed product. -/
def Obligations.MulhIsTheSignedUpperHalf : Prop :=
  EncodesR 0x02001033#32 .mulh ∧
  ∀ (rd rs1 rs2 : RegIdx) (s : State),
    CompletesWith (.mulh rd rs1 rs2) s rd
      (fun v => (v.toNat : Int) = ((s.readReg rs1).toInt * (s.readReg rs2).toInt) / 2 ^ 32 % 2 ^ 32)

/-- 41_arithmetic.md rule R115: `rs1` is the signed operand, `rs2` the unsigned one. -/
def Obligations.MulhsuIsTheMixedUpperHalf : Prop :=
  EncodesR 0x02002033#32 .mulhsu ∧
  ∀ (rd rs1 rs2 : RegIdx) (s : State),
    CompletesWith (.mulhsu rd rs1 rs2) s rd
      (fun v => (v.toNat : Int) = ((s.readReg rs1).toInt * ((s.readReg rs2).toNat : Int)) / 2 ^ 32 % 2 ^ 32)

/-- 41_arithmetic.md rule R116. -/
def Obligations.MulhuIsTheUnsignedUpperHalf : Prop :=
  EncodesR 0x02003033#32 .mulhu ∧
  ∀ (rd rs1 rs2 : RegIdx) (s : State),
    CompletesWith (.mulhu rd rs1 rs2) s rd
      (fun v => v.toNat = (s.readReg rs1).toNat * (s.readReg rs2).toNat / 2 ^ 32)

/-- 41_arithmetic.md rule R117; in its corners the value is `div_by_zero` or `div_overflow` of the configuration at hand (log 10). -/
def Obligations.DivRoundsTowardZero : Prop :=
  EncodesR 0x02004033#32 .div ∧
  ∀ (rd rs1 rs2 : RegIdx) (s : State),
    CompletesWith (.div rd rs1 rs2) s rd (fun v =>
      (s.readReg rs2 = 0#32 → v = divByZero s.cfg.divCorners (s.readReg rs1)) ∧
      (Overflows (s.readReg rs1) (s.readReg rs2) → v = divOverflow s.cfg.divCorners) ∧
      (s.readReg rs2 ≠ 0#32 → ¬ Overflows (s.readReg rs1) (s.readReg rs2) →
        v.toInt = towardZero (s.readReg rs1).toInt (s.readReg rs2).toInt))

/-- 41_arithmetic.md rule R118; in its corner the value is `divu_by_zero` of the configuration at hand (log 10). -/
def Obligations.DivuRoundsDown : Prop :=
  EncodesR 0x02005033#32 .divu ∧
  ∀ (rd rs1 rs2 : RegIdx) (s : State),
    CompletesWith (.divu rd rs1 rs2) s rd (fun v =>
      (s.readReg rs2 = 0#32 → v = divuByZero s.cfg.divCorners (s.readReg rs1)) ∧
      (s.readReg rs2 ≠ 0#32 → v.toNat = (s.readReg rs1).toNat / (s.readReg rs2).toNat))

/-- 41_arithmetic.md rule R120: the remainder is zero or has the sign of the dividend, and is smaller than the divisor; in its
corners the value is `rem_by_zero` or `rem_overflow` of the configuration at hand (log 10). -/
def Obligations.RemHasTheSignOfTheDividend : Prop :=
  EncodesR 0x02006033#32 .rem ∧
  ∀ (rd rs1 rs2 : RegIdx) (s : State),
    CompletesWith (.rem rd rs1 rs2) s rd (fun v =>
      (s.readReg rs2 = 0#32 → v = remByZero s.cfg.divCorners (s.readReg rs1)) ∧
      (Overflows (s.readReg rs1) (s.readReg rs2) → v = remOverflow s.cfg.divCorners) ∧
      (s.readReg rs2 ≠ 0#32 → ¬ Overflows (s.readReg rs1) (s.readReg rs2) →
        v.toInt = (s.readReg rs1).toInt
          - (s.readReg rs2).toInt * towardZero (s.readReg rs1).toInt (s.readReg rs2).toInt ∧
        v.toInt.natAbs < (s.readReg rs2).toInt.natAbs ∧
        (v.toInt = 0 ∨ v.toInt.sign = (s.readReg rs1).toInt.sign)))

/-- 41_arithmetic.md rule R121; in its corner the value is `remu_by_zero` of the configuration at hand (log 10). -/
def Obligations.RemuIsBelowTheDivisor : Prop :=
  EncodesR 0x02007033#32 .remu ∧
  ∀ (rd rs1 rs2 : RegIdx) (s : State),
    CompletesWith (.remu rd rs1 rs2) s rd (fun v =>
      (s.readReg rs2 = 0#32 → v = remuByZero s.cfg.divCorners (s.readReg rs1)) ∧
      (s.readReg rs2 ≠ 0#32 → v.toNat = (s.readReg rs1).toNat % (s.readReg rs2).toNat ∧
        v.toNat < (s.readReg rs2).toNat))

/-- The table of defaults of 41_arithmetic.md rule R119 (decision D9 of the spec, log 10); no case raises a fault. The premise
names the configuration, as the rule asks. -/
def Obligations.DivisionCornersHaveTheirDefaults : Prop :=
  ∀ (rd rs1 rs2 : RegIdx) (s : State), s.cfg.divCorners = .standard →
    (s.readReg rs2 = 0#32 →
      CompletesWith (.div rd rs1 rs2) s rd (fun v => v = 0xFFFFFFFF#32) ∧
      CompletesWith (.divu rd rs1 rs2) s rd (fun v => v = 0xFFFFFFFF#32) ∧
      CompletesWith (.rem rd rs1 rs2) s rd (fun v => v = s.readReg rs1) ∧
      CompletesWith (.remu rd rs1 rs2) s rd (fun v => v = s.readReg rs1)) ∧
    (Overflows (s.readReg rs1) (s.readReg rs2) →
      CompletesWith (.div rd rs1 rs2) s rd (fun v => v = 0x80000000#32) ∧
      CompletesWith (.rem rd rs1 rs2) s rd (fun v => v = 0x00000000#32))

/-- 41_arithmetic.md rule R122, which the spec marks as derived: an upper half and the MUL result together are the exact 64-bit
product in two's complement. -/
def Obligations.UpperAndLowerHalvesMakeTheProduct : Prop :=
  ∀ (rd rs1 rs2 : RegIdx) (s : State), ∃ low signedHigh mixedHigh unsignedHigh : Word,
    CompletesWith (.mul rd rs1 rs2) s rd (fun v => v = low) ∧
    CompletesWith (.mulh rd rs1 rs2) s rd (fun v => v = signedHigh) ∧
    CompletesWith (.mulhsu rd rs1 rs2) s rd (fun v => v = mixedHigh) ∧
    CompletesWith (.mulhu rd rs1 rs2) s rd (fun v => v = unsignedHigh) ∧
    (signedHigh ++ low : BitVec 64).toInt = (s.readReg rs1).toInt * (s.readReg rs2).toInt ∧
    (mixedHigh ++ low : BitVec 64).toInt = (s.readReg rs1).toInt * ((s.readReg rs2).toNat : Int) ∧
    (unsignedHigh ++ low : BitVec 64).toNat = (s.readReg rs1).toNat * (s.readReg rs2).toNat

/-- 41_arithmetic.md rule R122, which the spec marks as derived: quotient times divisor plus remainder is the dividend, modulo
2^32: outside the corners for every configuration, and inside them with the default values. -/
def Obligations.QuotientTimesDivisorPlusRemainder : Prop :=
  ∀ (rd rs1 rs2 : RegIdx) (s : State), ∃ q r qu ru : Word,
    CompletesWith (.div rd rs1 rs2) s rd (fun v => v = q) ∧ CompletesWith (.rem rd rs1 rs2) s rd (fun v => v = r) ∧
    CompletesWith (.divu rd rs1 rs2) s rd (fun v => v = qu) ∧ CompletesWith (.remu rd rs1 rs2) s rd (fun v => v = ru) ∧
    (s.cfg.divCorners = .standard ∨ s.readReg rs2 ≠ 0#32 ∧ ¬ Overflows (s.readReg rs1) (s.readReg rs2) →
      q * s.readReg rs2 + r = s.readReg rs1) ∧
    (s.cfg.divCorners = .standard ∨ s.readReg rs2 ≠ 0#32 → qu * s.readReg rs2 + ru = s.readReg rs1)

/-! ## Logical (42_logical.md) -/

/-- 42_logical.md rules R130, R132, R134: bit by bit. -/
def Obligations.LogicalRegisterFormsAreBitwise : Prop :=
  EncodesR 0x00004033#32 .xor ∧ EncodesR 0x00006033#32 .or ∧ EncodesR 0x00007033#32 .and ∧
  ∀ (rd rs1 rs2 : RegIdx) (s : State),
    CompletesWith (.xor rd rs1 rs2) s rd
      (fun v => ∀ k, k < 32 → v.getLsbD k = ((s.readReg rs1).getLsbD k).xor ((s.readReg rs2).getLsbD k)) ∧
    CompletesWith (.or rd rs1 rs2) s rd
      (fun v => ∀ k, k < 32 → v.getLsbD k = ((s.readReg rs1).getLsbD k || (s.readReg rs2).getLsbD k)) ∧
    CompletesWith (.and rd rs1 rs2) s rd
      (fun v => ∀ k, k < 32 → v.getLsbD k = ((s.readReg rs1).getLsbD k && (s.readReg rs2).getLsbD k))

/-- 42_logical.md rules R131, R133, R135: bit by bit, the immediate's bit 11 standing for every bit above it. -/
def Obligations.LogicalImmediateFormsSignExtend : Prop :=
  EncodesI 0x00004013#32 .xori ∧ EncodesI 0x00006013#32 .ori ∧ EncodesI 0x00007013#32 .andi ∧
  ∀ (rd rs1 : RegIdx) (imm : BitVec 12) (s : State),
    CompletesWith (.xori rd rs1 imm) s rd
      (fun v => ∀ k, k < 32 → v.getLsbD k = ((s.readReg rs1).getLsbD k).xor (imm.getLsbD (min k 11))) ∧
    CompletesWith (.ori rd rs1 imm) s rd
      (fun v => ∀ k, k < 32 → v.getLsbD k = ((s.readReg rs1).getLsbD k || imm.getLsbD (min k 11))) ∧
    CompletesWith (.andi rd rs1 imm) s rd
      (fun v => ∀ k, k < 32 → v.getLsbD k = ((s.readReg rs1).getLsbD k && imm.getLsbD (min k 11)))

/-! ## Shift (43_shift.md) -/

/-- 43_shift.md rules R140, R142, R144: by the 5 low bits of `x[rs2]`, as powers of two. -/
def Obligations.RegisterShiftsUseFiveBits : Prop :=
  EncodesR 0x00001033#32 .sll ∧ EncodesR 0x00005033#32 .srl ∧ EncodesR 0x40005033#32 .sra ∧
  ∀ (rd rs1 rs2 : RegIdx) (s : State),
    CompletesWith (.sll rd rs1 rs2) s rd
      (fun v => v.toNat = (s.readReg rs1).toNat * 2 ^ ((s.readReg rs2).toNat % 32) % 2 ^ 32) ∧
    CompletesWith (.srl rd rs1 rs2) s rd
      (fun v => v.toNat = (s.readReg rs1).toNat / 2 ^ ((s.readReg rs2).toNat % 32)) ∧
    CompletesWith (.sra rd rs1 rs2) s rd
      (fun v => v.toInt = (s.readReg rs1).toInt / 2 ^ ((s.readReg rs2).toNat % 32))

/-- 43_shift.md rules R141, R143, R145: by `shamt5`, as powers of two. -/
def Obligations.ImmediateShiftsUseShamt : Prop :=
  EncodesShift 0x00001013#32 .slli ∧ EncodesShift 0x00005013#32 .srli ∧ EncodesShift 0x40005013#32 .srai ∧
  ∀ (rd rs1 : RegIdx) (shamt : BitVec 5) (s : State),
    CompletesWith (.slli rd rs1 shamt) s rd
      (fun v => v.toNat = (s.readReg rs1).toNat * 2 ^ shamt.toNat % 2 ^ 32) ∧
    CompletesWith (.srli rd rs1 shamt) s rd (fun v => v.toNat = (s.readReg rs1).toNat / 2 ^ shamt.toNat) ∧
    CompletesWith (.srai rd rs1 shamt) s rd (fun v => v.toInt = (s.readReg rs1).toInt / 2 ^ shamt.toNat)

/-! ## Compare (44_compare.md) -/

/-- 44_compare.md rules R150, R153. -/
def Obligations.RegisterComparesGiveOneOrZero : Prop :=
  EncodesR 0x00002033#32 .slt ∧ EncodesR 0x00003033#32 .sltu ∧
  ∀ (rd rs1 rs2 : RegIdx) (s : State),
    CompletesWith (.slt rd rs1 rs2) s rd
      (fun v => v.toNat = if (s.readReg rs1).toInt < (s.readReg rs2).toInt then 1 else 0) ∧
    CompletesWith (.sltu rd rs1 rs2) s rd
      (fun v => v.toNat = if (s.readReg rs1).toNat < (s.readReg rs2).toNat then 1 else 0)

/-- 44_compare.md rules R151, R152: SLTIU sign-extends its immediate and then compares as unsigned numbers. -/
def Obligations.ImmediateComparesSignExtend : Prop :=
  EncodesI 0x00002013#32 .slti ∧ EncodesI 0x00003013#32 .sltiu ∧
  ∀ (rd rs1 : RegIdx) (imm : BitVec 12) (s : State),
    CompletesWith (.slti rd rs1 imm) s rd
      (fun v => v.toNat = if (s.readReg rs1).toInt < imm.toInt then 1 else 0) ∧
    CompletesWith (.sltiu rd rs1 imm) s rd
      (fun v => v.toNat = if ((s.readReg rs1).toNat : Int) < imm.toInt % 2 ^ 32 then 1 else 0)

/-! ## Link (45_link.md) -/

/-- 45_link.md rule R160; its opcode is the parameter `JAL_OPCODE`, with the value by which the spec corrects a misprint (decision
D7, log 11). -/
def Obligations.JalLinksAndJumps : Prop :=
  EncodesWhen (fun c => c.jalOpcode = 0b1101111#7) 0x0000007F#32 0x0000006F#32 (fun w => .jal (regAt w 7) (bitsJ w)) ∧
  ∀ (rd : RegIdx) (off : BitVec 21) (s : State),
    ((s.pc + off.signExtend 32).toNat % 4 = 0 → LinksAndGoesTo (.jal rd off) s rd (s.pc + off.signExtend 32)) ∧
    ((s.pc + off.signExtend 32).toNat % 4 ≠ 0 →
      exec (.jal rd off) s = .fault (.misalignedFetch (s.pc + off.signExtend 32)))

/-- 45_link.md rule R161: bit 0 of the sum is cleared before the target is looked at, and the sum is formed from `x[rs1]` before
`x[rd]` is written. -/
def Obligations.JalrLinksAndJumps : Prop :=
  EncodesI 0x00000067#32 .jalr ∧
  ∀ (rd rs1 : RegIdx) (imm : BitVec 12) (s : State) (target : Word),
    target.toNat = 2 * ((s.readReg rs1 + imm.signExtend 32).toNat / 2) →
    (target.toNat % 4 = 0 → LinksAndGoesTo (.jalr rd rs1 imm) s rd target) ∧
    (target.toNat % 4 ≠ 0 → exec (.jalr rd rs1 imm) s = .fault (.misalignedFetch target))

/-! ## Branch (46_branch.md) -/

/-- 46_branch.md rules R170, R171. -/
def Obligations.EqualityBranches : Prop :=
  EncodesB (fun _ => True) 0x00000063#32 .beq ∧ EncodesB (fun _ => True) 0x00001063#32 .bne ∧
  ∀ (rs1 rs2 : RegIdx) (off : BitVec 13) (s : State),
    Branches (.beq rs1 rs2 off) s off (s.readReg rs1 = s.readReg rs2) ∧
    Branches (.bne rs1 rs2 off) s off (s.readReg rs1 ≠ s.readReg rs2)

/-- 46_branch.md rules R172, R173: the values are read as two's complement numbers; the funct3 of BLT is the parameter
`BLT_FUNCT3`, with the value by which the spec corrects a misprint (decision D8, log 11). -/
def Obligations.SignedBranches : Prop :=
  EncodesB (fun c => c.bltFunct3 = 0b100#3) 0x00004063#32 .blt ∧ EncodesB (fun _ => True) 0x00005063#32 .bge ∧
  ∀ (rs1 rs2 : RegIdx) (off : BitVec 13) (s : State),
    Branches (.blt rs1 rs2 off) s off ((s.readReg rs1).toInt < (s.readReg rs2).toInt) ∧
    Branches (.bge rs1 rs2 off) s off ((s.readReg rs1).toInt ≥ (s.readReg rs2).toInt)

/-- 46_branch.md rules R174, R175: the values are read as unsigned numbers; the funct3 of BGEU is the parameter
`BGEU_FUNCT3`, with the value by which the spec corrects a misprint (decision D8, log 11). -/
def Obligations.UnsignedBranches : Prop :=
  EncodesB (fun _ => True) 0x00006063#32 .bltu ∧
  EncodesB (fun c => c.bltFunct3 = 0b100#3 ∧ c.bgeuFunct3 = 0b111#3) 0x00007063#32 .bgeu ∧
  ∀ (rs1 rs2 : RegIdx) (off : BitVec 13) (s : State),
    Branches (.bltu rs1 rs2 off) s off ((s.readReg rs1).toNat < (s.readReg rs2).toNat) ∧
    Branches (.bgeu rs1 rs2 off) s off ((s.readReg rs1).toNat ≥ (s.readReg rs2).toNat)

/-! ## Loads (47_loads.md) -/

/-- 47_loads.md rules R180, R182. -/
def Obligations.ByteLoads : Prop :=
  EncodesI 0x00000003#32 .lb ∧ EncodesI 0x00004003#32 .lbu ∧
  ∀ (rd rs1 : RegIdx) (imm : BitVec 12) (s : State),
    loadAddress s rs1 imm = s.readReg rs1 + imm.signExtend 32 ∧
    Loads (.lb rd rs1 imm) s (loadAddress s rs1 imm) 1 rd ((s.byteAt (loadAddress s rs1 imm)).signExtend 32) ∧
    Loads (.lbu rd rs1 imm) s (loadAddress s rs1 imm) 1 rd (0#24 ++ s.byteAt (loadAddress s rs1 imm))

/-- 47_loads.md rules R181, R183 for `BYTE_ORDER = little` and `MISALIGNED_DATA = fault`; what the statement says of `big` and
`split` is the model's reading of 20_memory.md rules R44 and R46 (logs 8 and 9). -/
def Obligations.HalfwordLoads : Prop :=
  EncodesI 0x00001003#32 .lh ∧ EncodesI 0x00005003#32 .lhu ∧
  ∀ (rd rs1 : RegIdx) (imm : BitVec 12) (s : State),
    loadAddress s rs1 imm = s.readReg rs1 + imm.signExtend 32 ∧
    Loads (.lh rd rs1 imm) s (loadAddress s rs1 imm) 2 rd ((halfAt s (loadAddress s rs1 imm)).signExtend 32) ∧
    Loads (.lhu rd rs1 imm) s (loadAddress s rs1 imm) 2 rd (0#16 ++ halfAt s (loadAddress s rs1 imm))

/-- 47_loads.md rule R184 for `BYTE_ORDER = little` and `MISALIGNED_DATA = fault`; what the statement says of `big` and `split`
is the model's reading of 20_memory.md rules R44 and R46 (logs 8 and 9). -/
def Obligations.WordLoads : Prop :=
  EncodesI 0x00002003#32 .lw ∧
  ∀ (rd rs1 : RegIdx) (imm : BitVec 12) (s : State),
    loadAddress s rs1 imm = s.readReg rs1 + imm.signExtend 32 ∧
    Loads (.lw rd rs1 imm) s (loadAddress s rs1 imm) 4 rd (wordAt s (loadAddress s rs1 imm))

/-- 20_memory.md rule R51 (decision D28 of the spec): a load reads exactly its own bytes. Two states that agree on the registers,
the pc, the configuration and those bytes load the same value, whatever the rest of memory holds. -/
def Obligations.LoadsReadOnlyTheirOwnBytes : Prop :=
  ∀ (i : Instr) (s u t : State) (n : Nat) (addr : Word), loadAccess i s = some (n, addr) →
    SameRegs s u → u.pc = s.pc → u.cfg = s.cfg →
    (∀ k, k < n → u.byteAt (addr + BitVec.ofNat 32 k) = s.byteAt (addr + BitVec.ofNat 32 k)) →
    exec i s = .next t →
    ∃ t', exec i u = .next t' ∧ SameRegs t t' ∧ t'.pc = t.pc ∧ ∀ a, t'.byteAt a = u.byteAt a

/-! ## Stores (48_stores.md) -/

/-- 48_stores.md rule R190. -/
def Obligations.ByteStores : Prop :=
  EncodesS 0x00000023#32 .sb ∧
  ∀ (rs1 rs2 : RegIdx) (imm : BitVec 12) (s : State),
    storeAddress s rs1 imm = s.readReg rs1 + imm.signExtend 32 ∧
    Stores (.sb rs1 rs2 imm) s (storeAddress s rs1 imm) 1 (fun _ => (s.readReg rs2).extractLsb' 0 8)

/-- 48_stores.md rule R191 for `BYTE_ORDER = little` and `MISALIGNED_DATA = fault`; what the statement says of `big` and `split`
is the model's reading of 20_memory.md rules R44 and R46 (logs 8 and 9). -/
def Obligations.HalfwordStores : Prop :=
  EncodesS 0x00001023#32 .sh ∧
  ∀ (rs1 rs2 : RegIdx) (imm : BitVec 12) (s : State),
    storeAddress s rs1 imm = s.readReg rs1 + imm.signExtend 32 ∧
    Stores (.sh rs1 rs2 imm) s (storeAddress s rs1 imm) 2
      (fun k => (s.readReg rs2).extractLsb' (8 * byteIndex s 2 k) 8)

/-- 48_stores.md rule R192 for `BYTE_ORDER = little` and `MISALIGNED_DATA = fault`; what the statement says of `big` and `split`
is the model's reading of 20_memory.md rules R44 and R46 (logs 8 and 9). -/
def Obligations.WordStores : Prop :=
  EncodesS 0x00002023#32 .sw ∧
  ∀ (rs1 rs2 : RegIdx) (imm : BitVec 12) (s : State),
    storeAddress s rs1 imm = s.readReg rs1 + imm.signExtend 32 ∧
    Stores (.sw rs1 rs2 imm) s (storeAddress s rs1 imm) 4
      (fun k => (s.readReg rs2).extractLsb' (8 * byteIndex s 4 k) 8)

/-! ## Memory (20_memory.md) -/

/-- 20_memory.md rule R44 (decision D2 of the spec): a mixed-width access sees the same bytes, the least significant one at the
lowest address. -/
def Obligations.MixedWidthAccessesSeeTheSameBytes : Prop :=
  ∀ (s : State) (addr : Word), s.cfg.byteOrder = .little →
    (∀ (v : Word) (k : Nat), k < 4 →
      (s.write32 addr v).read8 (addr + BitVec.ofNat 32 k) = v.extractLsb' (8 * k) 8) ∧
    (∀ v : Word, (s.write32 addr v).read16 addr = v.extractLsb' 0 16 ∧
      (s.write32 addr v).read16 (addr + 2#32) = v.extractLsb' 16 16 ∧ (s.write32 addr v).read32 addr = v) ∧
    (∀ v : BitVec 16, (s.write16 addr v).read16 addr = v ∧
      (s.write16 addr v).read8 addr = v.extractLsb' 0 8 ∧ (s.write16 addr v).read8 (addr + 1#32) = v.extractLsb' 8 8) ∧
    (∀ v : BitVec 8, (s.write8 addr v).read8 addr = v)

/-- 20_memory.md rule R49, which the spec marks as derived: an access of n bytes at a multiple of n never runs past the top of the
address space. -/
def Obligations.AlignedAccessesNeverWrap : Prop :=
  ∀ (addr : Word) (w : AccessWidth), isAligned addr w = true → ∀ k, k < widthBytes w →
    (addr + BitVec.ofNat 32 k).toNat = addr.toNat + k

/-- 20_memory.md rules R42 and R58 (decisions D16 and D17 of the spec): an access is admitted exactly if each of its bytes is, and
no store that touches a byte of `TEXT` is admitted. That no store touches any other byte that can be fetched is the model's own
reading of the rule's `A fetch therefore always returns the byte values loaded at launch` (log 18). -/
def Obligations.AccessesAreAdmittedByteByByte : Prop :=
  ∀ (c : Config) (addr : Word) (n : Nat),
    (∀ kind, admits c addr n kind = true ↔
      ∀ k, k < n → admits c (addr + BitVec.ofNat 32 k) 1 kind = true) ∧
    (∀ k, k < n → inRegions c.text (addr + BitVec.ofNat 32 k).toNat = true → admits c addr n .store = false) ∧
    (∀ k, k < n → admits c (addr + BitVec.ofNat 32 k) 1 .fetch = true → admits c addr n .store = false)

/-- 20_memory.md rules R41, R51 (decision D28 of the spec): an instruction changes no byte of memory but those a store stores to. -/
def Obligations.OnlyStoresChangeMemory : Prop :=
  ∀ (i : Instr) (s t : State), exec i s = .next t → ∀ a,
    (∀ n addr, storeAccess i s = some (n, addr) → ∀ k, k < n → a ≠ addr + BitVec.ofNat 32 k) →
    t.byteAt a = s.byteAt a

/-- 10_state.md rule R25 (decision D20 of the spec): an instruction that completes and is no taken branch, JAL or JALR goes on to
`pc + 4`. -/
def Obligations.PcAdvancesByFour : Prop :=
  ∀ (i : Instr) (s t : State), exec i s = .next t → ¬ takesBranch i s → ¬ isJump i → t.pc = s.pc + 4#32

/-! ## Faults (60_exceptions.md) -/

/-- 60_exceptions.md rule R202 (decision D4 of the spec): which instructions raise `MisalignedFetch`, when, and with which target. -/
def Obligations.MisalignedFetchExactly : Prop :=
  ∀ (i : Instr) (s : State) (target : Word), exec i s = .fault (.misalignedFetch target) ↔
    (isJump i ∨ takesBranch i s) ∧ transferTarget i s = some target ∧ target.toNat % 4 ≠ 0

/-- 60_exceptions.md rule R203 (decision D3 of the spec): which instructions raise `MisalignedLoad`, when, and with which address. -/
def Obligations.MisalignedLoadExactly : Prop :=
  ∀ (i : Instr) (s : State) (addr : Word), exec i s = .fault (.misalignedLoad addr) ↔
    ∃ n, loadAccess i s = some (n, addr) ∧ s.cfg.misalignedData = .fault ∧ addr.toNat % n ≠ 0

/-- 60_exceptions.md rule R204 (decision D3 of the spec): which instructions raise `MisalignedStore`, when, and with which address. -/
def Obligations.MisalignedStoreExactly : Prop :=
  ∀ (i : Instr) (s : State) (addr : Word), exec i s = .fault (.misalignedStore addr) ↔
    ∃ n, storeAccess i s = some (n, addr) ∧ s.cfg.misalignedData = .fault ∧ addr.toNat % n ≠ 0

/-- 60_exceptions.md rule R205 (decisions D10 and D17 of the spec) for `MISALIGNED_DATA = fault`: every step raises it for its
fetch, and the loads and stores for their data, once they are aligned. What the statement says of a misaligned access under
`split`, the fault and its address, is the model's own reading of 20_memory.md rule R46 (log 9). -/
def Obligations.AccessFaultExactly : Prop :=
  (∀ (i : Instr) (s : State) (kind : AccessKind) (addr : Word), exec i s = .fault (.accessFault kind addr) ↔
    ∃ n, Permitted s addr n ∧ admits s.cfg addr n kind = false ∧
      (kind = .load ∧ loadAccess i s = some (n, addr) ∨ kind = .store ∧ storeAccess i s = some (n, addr))) ∧
  ∀ s : State, s.pc.toNat % 4 = 0 →
    ((∃ addr, step s = .fault (.accessFault .fetch addr)) ↔ admits s.cfg s.pc 4 .fetch = false) ∧
    ∀ addr, step s = .fault (.accessFault .fetch addr) → addr = s.pc

/-! ## Invariants and runs -/

/-- 10_state.md rules R26 and R22 (decisions D4 and D1 of the spec), and the model's own canonical form of memory (log 4): what
holds in a state holds after every step from it. -/
def Obligations.StepKeepsTheInvariant : Prop :=
  ∀ s t : State, Invariant s → Sys2Proof.Machine.step s = .next t → Invariant t

/-- 70_reset_and_hazards.md rule R240 (decision D13 of the spec): after reset the pc is `RESET_PC`, whatever well-formed launch
there was, and the invariant holds; so it does in the model's own reset state (logs 2 and 5). The values that the model names for
registers 1 to 31 and for memory in `State.reset` (logs 3 and 4) are not spoken of. -/
def Obligations.ResetMeetsTheInvariant : Prop :=
  (∀ l : Launch, l.wellFormed = true →
    (State.resetOf l).pc = l.cfg.resetPc ∧ (State.resetOf l).pc.toNat % 4 = 0 ∧ Invariant (State.resetOf l)) ∧
  Invariant State.reset

/-- 10_state.md rule R34, 70_reset_and_hazards.md rules R241 and R243, 20_memory.md rules R45 and R58 (decisions D13, D16, D17 of the
spec): after the reset of a well-formed launch every word of the program lies at its multiple of 4 in `TEXT` and can be fetched
there, no byte of `TEXT` can be stored to, memory off `TEXT` is the launch's, register 0 is zero if it is the constant, and the
other registers are the launch's. The word is read in the byte order of the configuration: little is what R243 says, big is the
model's own reading (log 8); what a byte that the launch's data memory does not list reads as is the model's (log 4). -/
def Obligations.LaunchPlacesTheProgram : Prop :=
  ∀ l : Launch, l.wellFormed = true →
    (∀ p ∈ l.program, ∀ (k : Nat) (w : Word), p.words[k]? = some w →
      (p.base + BitVec.ofNat 32 (4 * k)).toNat % 4 = 0 ∧
      (∀ j, j < 4 → inRegions l.cfg.text (p.base + BitVec.ofNat 32 (4 * k + j)).toNat = true) ∧
      admits l.cfg (p.base + BitVec.ofNat 32 (4 * k)) 4 .fetch = true ∧
      wordAt (State.resetOf l) (p.base + BitVec.ofNat 32 (4 * k)) = w) ∧
    (∀ a : Word, inRegions l.cfg.text a.toNat = true →
      admits l.cfg a 1 .fetch = true ∧ admits l.cfg a 1 .store = false) ∧
    (∀ a : Word, inRegions l.cfg.text a.toNat = false → (State.resetOf l).byteAt a = Memory.read l.data a.toNat) ∧
    ∀ r : RegIdx, (State.resetOf l).readReg r = if l.cfg.x0Zero = true ∧ r = 0 then 0#32 else l.regs[r]

/-- 20_memory.md rule R58 (decision D16 of the spec) and 70_reset_and_hazards.md rule R250: over any number of steps from any state,
the program's bytes stay what they were, and so does every instruction word that can be fetched, in `TEXT` or off it (off it by the
model's own reading, log 18), so that the store-then-fetch of one address does not arise; nor does the configuration change (log
1). -/
def Obligations.ProgramBytesNeverChange : Prop :=
  ∀ (k : Nat) (s t : State), Host.Core.run Sys2Proof.core k s = .next t →
    t.cfg = s.cfg ∧
    (∀ a : Word, inRegions s.cfg.text a.toNat = true → t.byteAt a = s.byteAt a) ∧
    (∀ a : Word, admits s.cfg a 4 .fetch = true → wordAt t a = wordAt s a)

/-- 70_reset_and_hazards.md rules R244, R245 and 60_exceptions.md rule R200 (decisions D14 and D10 of the spec): a run is final
exactly at `HALT_PC`, which is tested before the fetch; a fault is never final and leaves the state before the faulting
instruction; more fuel never changes an outcome that was reached. -/
def Obligations.RunsEndAtHaltPcOrAtAFault : Prop :=
  (∀ (fuel : Nat) (s : State), s.pc = s.cfg.haltPc → runToHalt fuel s = .final s) ∧
  (∀ (fuel : Nat) (s t : State), runToHalt fuel s = .final t → t.pc = t.cfg.haltPc) ∧
  (∀ (fuel : Nat) (s t : State) (f : Fault), runToHalt fuel s = .faulted f t →
    t.pc ≠ t.cfg.haltPc ∧ step t = .fault f) ∧
  (∀ (fuel more : Nat) (s t : State), runToHalt fuel s = .final t → runToHalt (fuel + more) s = .final t) ∧
  (∀ (fuel more : Nat) (s t : State) (f : Fault), runToHalt fuel s = .faulted f t →
    runToHalt (fuel + more) s = .faulted f t)
end

