-- ==== Sys2Proof/Laws/Memory.lean ====
section
/-! SUPPORT. Reading after writing, and the canonical form of memory. -/

namespace Sys2Proof.Machine

theorem Memory.read_filter_ne (m : Memory) {a x : Nat} (h : x ≠ a) :
    Memory.read (m.filter (fun c => decide (c.1 ≠ a))) x = Memory.read m x := by
  induction m with
  | nil => rfl
  | cons c m ih =>
    by_cases hc : c.1 = a
    · have : c.1 ≠ x := fun e => h (e ▸ hc)
      simpa [hc, Memory.read, h.symm] using ih
    · by_cases hx : c.1 = x
      · subst hx; simp [hc, Memory.read]
      · simpa [hc, Memory.read, hx] using ih

theorem Memory.read_filter_self (m : Memory) (a : Nat) :
    Memory.read (m.filter (fun c => decide (c.1 ≠ a))) a = Memory.unlisted := by
  induction m with
  | nil => rfl
  | cons c m ih =>
    by_cases hc : c.1 = a <;> simpa [hc, Memory.read] using ih

theorem Memory.read_insertCell_ne (m : Memory) {a x : Nat} (b : Byte) (h : x ≠ a) :
    Memory.read (Memory.insertCell a b m) x = Memory.read m x := by
  induction m with
  | nil => simp [Memory.insertCell, Memory.read, h.symm]
  | cons c m ih =>
    unfold Memory.insertCell
    split
    · simp [Memory.read, h.symm]
    · simp [Memory.read, ih]

theorem Memory.read_insertCell_self (m : Memory) (a : Nat) (b : Byte) (h : ∀ c ∈ m, c.1 ≠ a) :
    Memory.read (Memory.insertCell a b m) a = b := by
  induction m with
  | nil => simp [Memory.insertCell, Memory.read]
  | cons c m ih =>
    unfold Memory.insertCell
    split
    · simp [Memory.read]
    · simp [Memory.read, h c (by simp), ih (fun d hd => h d (by simp [hd]))]

/-- A byte written is read back. -/
@[simp] theorem Memory.read_write_self (m : Memory) (a : Nat) (b : Byte) :
    Memory.read (Memory.write m a b) a = b := by
  unfold Memory.write
  by_cases hb : b = Memory.unlisted
  · simp only [hb, if_true]; exact Memory.read_filter_self m a
  · simp only [hb, if_false]
    exact Memory.read_insertCell_self _ a b (by simp)

/-- A write leaves every other byte alone. -/
theorem Memory.read_write_ne (m : Memory) {a x : Nat} (b : Byte) (h : x ≠ a) :
    Memory.read (Memory.write m a b) x = Memory.read m x := by
  unfold Memory.write
  by_cases hb : b = Memory.unlisted
  · simp only [hb, if_true]; exact Memory.read_filter_ne m h
  · simp only [hb, if_false]
    rw [Memory.read_insertCell_ne _ b h, Memory.read_filter_ne m h]

theorem Memory.wf_cons {c : Host.Cell} {m : Memory} :
    Memory.wf (c :: m) = true ↔
      c.1 < 4294967296 ∧ c.2 ≠ Memory.unlisted ∧ (∀ d ∈ m, c.1 < d.1) ∧ Memory.wf m = true := by
  simp [Memory.wf, and_assoc]

theorem Memory.wf_filter {m : Memory} (p : Host.Cell → Bool) (h : Memory.wf m = true) :
    Memory.wf (m.filter p) = true := by
  induction m with
  | nil => rfl
  | cons c m ih =>
    obtain ⟨h1, h2, h3, h4⟩ := Memory.wf_cons.1 h
    by_cases hp : p c = true
    · rw [List.filter_cons_of_pos hp]
      exact Memory.wf_cons.2 ⟨h1, h2, fun d hd => h3 d (List.mem_filter.1 hd).1, ih h4⟩
    · rw [List.filter_cons_of_neg hp]; exact ih h4

theorem Memory.mem_insertCell {m : Memory} {a : Nat} {b : Byte} {c : Host.Cell}
    (h : c ∈ Memory.insertCell a b m) : c = (a, b) ∨ c ∈ m := by
  induction m with
  | nil => simpa [Memory.insertCell] using h
  | cons d m ih =>
    unfold Memory.insertCell at h
    split at h
    · simpa using h
    · rcases List.mem_cons.1 h with h | h
      · exact .inr (by simp [h])
      · rcases ih h with h | h
        · exact .inl h
        · exact .inr (by simp [h])

theorem Memory.wf_insertCell {m : Memory} {a : Nat} {b : Byte} (ha : a < 4294967296) (hb : b ≠ Memory.unlisted)
    (hm : ∀ c ∈ m, c.1 ≠ a) (h : Memory.wf m = true) : Memory.wf (Memory.insertCell a b m) = true := by
  induction m with
  | nil => exact Memory.wf_cons.2 ⟨ha, hb, by simp, rfl⟩
  | cons c m ih =>
    obtain ⟨h1, h2, h3, h4⟩ := Memory.wf_cons.1 h
    unfold Memory.insertCell
    split
    · rename_i hac
      refine Memory.wf_cons.2 ⟨ha, hb, fun d hd => ?_, h⟩
      rcases List.mem_cons.1 hd with hd | hd
      · rw [hd]; exact hac
      · exact Nat.lt_trans hac (h3 d hd)
    · rename_i hac
      have hca : c.1 < a := Nat.lt_of_le_of_ne (Nat.not_lt.1 hac) (hm c (by simp))
      refine Memory.wf_cons.2 ⟨h1, h2, fun d hd => ?_, ih (fun d hd => hm d (by simp [hd])) h4⟩
      rcases Memory.mem_insertCell hd with hd | hd
      · rw [hd]; exact hca
      · exact h3 d hd

/-- Every write keeps the canonical form. -/
theorem Memory.wf_write {m : Memory} {a : Nat} (b : Byte) (ha : a < 4294967296) (h : Memory.wf m = true) :
    Memory.wf (Memory.write m a b) = true := by
  unfold Memory.write
  by_cases hb : b = Memory.unlisted
  · simp only [hb, if_true]; exact Memory.wf_filter _ h
  · simp only [hb, if_false]
    exact Memory.wf_insertCell ha hb (by simp) (Memory.wf_filter _ h)

/-! ## Loading from outside the machine -/

/-- The next address, where there is one. -/
theorem toNat_add_one {a : Word} (h : a.toNat + 1 < 4294967296) : (a + 1#32).toNat = a.toNat + 1 := by
  simp only [BitVec.toNat_add, BitVec.toNat_ofNat]
  omega

theorem toNat_add_four {a : Word} (h : a.toNat + 4 < 4294967296) : (a + 4#32).toNat = a.toNat + 4 := by
  simp only [BitVec.toNat_add, BitVec.toNat_ofNat]
  omega

/-- Writing bytes leaves every byte outside them alone. -/
theorem Memory.read_writeBytes_outside (bs : List Byte) (m : Memory) (a : Word) {x : Nat}
    (hw : a.toNat + bs.length ≤ 4294967296) (hx : x < a.toNat ∨ a.toNat + bs.length ≤ x) :
    Memory.read (Memory.writeBytes m a bs) x = Memory.read m x := by
  induction bs generalizing m a with
  | nil => rfl
  | cons b bs ih =>
    rw [List.length_cons] at hw hx
    have hne : x ≠ a.toNat := by omega
    unfold Memory.writeBytes
    by_cases hb : bs = []
    · subst hb; exact Memory.read_write_ne m b hne
    · have hl := List.length_pos_of_ne_nil hb
      have e := toNat_add_one (a := a) (by omega)
      rw [ih _ _ (by omega) (by omega), Memory.read_write_ne m b hne]

/-- Bytes written are read back. -/
theorem Memory.read_writeBytes (bs : List Byte) (m : Memory) (a : Word) {k : Nat}
    (hw : a.toNat + bs.length ≤ 4294967296) (hk : k < bs.length) :
    Memory.read (Memory.writeBytes m a bs) (a.toNat + k) = bs[k] := by
  induction bs generalizing m a k with
  | nil => exact absurd hk (Nat.not_lt_zero k)
  | cons b bs ih =>
    rw [List.length_cons] at hw hk
    unfold Memory.writeBytes
    by_cases hb : bs = []
    · subst hb
      have : k = 0 := by simpa using hk
      subst this
      exact Memory.read_write_self m a.toNat b
    · have hl := List.length_pos_of_ne_nil hb
      have e := toNat_add_one (a := a) (by omega)
      cases k with
      | zero =>
        rw [Memory.read_writeBytes_outside bs _ _ (by omega) (by omega)]
        exact Memory.read_write_self m a.toNat b
      | succ k =>
        have := ih (Memory.write m a.toNat b) (a + 1#32) (k := k) (by omega) (by omega)
        rw [e, Nat.add_assoc, Nat.add_comm 1 k] at this
        exact this

theorem Memory.wf_writeBytes (bs : List Byte) {m : Memory} (a : Word) (h : Memory.wf m = true) :
    Memory.wf (Memory.writeBytes m a bs) = true := by
  induction bs generalizing m a with
  | nil => exact h
  | cons b bs ih => exact ih _ (Memory.wf_write b a.isLt h)

@[simp] theorem length_bytesOfWord (order : ByteOrder) (w : Word) : (bytesOfWord order w).length = 4 := rfl

theorem getElem_bytesOfWord (order : ByteOrder) (w : Word) {j : Nat} (h : j < (bytesOfWord order w).length) :
    (bytesOfWord order w)[j] = byteOfWord order w j := by
  have : j = 0 ∨ j = 1 ∨ j = 2 ∨ j = 3 := by rw [length_bytesOfWord] at h; omega
  rcases this with rfl | rfl | rfl | rfl <;> rfl

/-- Loading words leaves every byte outside them alone. -/
theorem Memory.read_loadWords_outside (order : ByteOrder) (ws : List Word) (m : Memory) (a : Word) {x : Nat}
    (hw : a.toNat + 4 * ws.length ≤ 4294967296) (hx : x < a.toNat ∨ a.toNat + 4 * ws.length ≤ x) :
    Memory.read (Memory.loadWords order m a ws) x = Memory.read m x := by
  induction ws generalizing m a with
  | nil => rfl
  | cons w ws ih =>
    rw [List.length_cons] at hw hx
    have here : Memory.read (Memory.writeBytes m a (bytesOfWord order w)) x = Memory.read m x :=
      Memory.read_writeBytes_outside _ m a (by rw [length_bytesOfWord]; omega) (by rw [length_bytesOfWord]; omega)
    unfold Memory.loadWords
    by_cases hb : ws = []
    · subst hb; exact here
    · have hl := List.length_pos_of_ne_nil hb
      have e := toNat_add_four (a := a) (by omega)
      rw [ih _ _ (by omega) (by omega), here]

/-- Words loaded are read back, byte by byte. -/
theorem Memory.read_loadWords (order : ByteOrder) (ws : List Word) (m : Memory) (a : Word) {k j : Nat}
    (hw : a.toNat + 4 * ws.length ≤ 4294967296) (hk : k < ws.length) (hj : j < 4) :
    Memory.read (Memory.loadWords order m a ws) (a.toNat + 4 * k + j) = byteOfWord order ws[k] j := by
  induction ws generalizing m a k with
  | nil => exact absurd hk (Nat.not_lt_zero k)
  | cons w ws ih =>
    rw [List.length_cons] at hw hk
    have here : Memory.read (Memory.writeBytes m a (bytesOfWord order w)) (a.toNat + j) = byteOfWord order w j := by
      exact (Memory.read_writeBytes _ m a (by rw [length_bytesOfWord]; omega) hj).trans (getElem_bytesOfWord order w hj)
    unfold Memory.loadWords
    by_cases hb : ws = []
    · subst hb
      have : k = 0 := by simpa using hk
      subst this
      exact here
    · have hl := List.length_pos_of_ne_nil hb
      have e := toNat_add_four (a := a) (by omega)
      cases k with
      | zero =>
        rw [Memory.read_loadWords_outside order ws _ _ (by omega) (by omega)]
        exact here
      | succ k =>
        have := ih (Memory.writeBytes m a (bytesOfWord order w)) (a + 4#32) (k := k) (by omega) (by omega)
        have r : (a + 4#32).toNat + 4 * k + j = a.toNat + 4 * (k + 1) + j := by omega
        rw [r] at this
        exact this

theorem Memory.wf_loadWords (order : ByteOrder) (ws : List Word) {m : Memory} (a : Word) (h : Memory.wf m = true) :
    Memory.wf (Memory.loadWords order m a ws) = true := by
  induction ws generalizing m a with
  | nil => exact h
  | cons w ws ih => exact ih _ (Memory.wf_writeBytes _ a h)

/-- Loading a program keeps the canonical form. -/
theorem Memory.wf_loadProgram (order : ByteOrder) (ps : List ProgramPart) {m : Memory} (h : Memory.wf m = true) :
    Memory.wf (Memory.loadProgram order m ps) = true := by
  induction ps generalizing m with
  | nil => exact h
  | cons p ps ih => exact ih (Memory.wf_loadWords order _ _ h)

/-- Loading a program leaves every byte outside it alone. -/
theorem Memory.read_loadProgram_outside (order : ByteOrder) (ps : List ProgramPart) (m : Memory) {x : Nat}
    (hw : ∀ p ∈ ps, p.base.toNat + 4 * p.words.length ≤ 4294967296)
    (hx : ∀ p ∈ ps, x < p.base.toNat ∨ p.base.toNat + 4 * p.words.length ≤ x) :
    Memory.read (Memory.loadProgram order m ps) x = Memory.read m x := by
  induction ps generalizing m with
  | nil => rfl
  | cons p ps ih =>
    unfold Memory.loadProgram
    rw [ih _ (fun q hq => hw q (by simp [hq])) (fun q hq => hx q (by simp [hq])),
      Memory.read_loadWords_outside order _ _ _ (hw p (by simp)) (hx p (by simp))]

theorem Region.disjoint_iff (r q : Region) :
    Region.disjoint r q = true ↔ r.base + r.size ≤ q.base ∨ q.base + q.size ≤ r.base := by
  simp [Region.disjoint]

/-- The words of a program whose parts lie apart are read back, byte by byte. -/
theorem Memory.read_loadProgram (order : ByteOrder) (ps : List ProgramPart) (m : Memory) {p : ProgramPart} {k j : Nat}
    (hw : ∀ p ∈ ps, p.base.toNat + 4 * p.words.length ≤ 4294967296)
    (hd : pairwiseDisjoint (ps.map ProgramPart.region) = true) (hp : p ∈ ps) (hk : k < p.words.length) (hj : j < 4) :
    Memory.read (Memory.loadProgram order m ps) (p.base.toNat + 4 * k + j) = byteOfWord order p.words[k] j := by
  induction ps generalizing m with
  | nil => cases hp
  | cons q ps ih =>
    rw [List.map_cons, pairwiseDisjoint, Bool.and_eq_true, List.all_eq_true] at hd
    unfold Memory.loadProgram
    rcases List.mem_cons.1 hp with rfl | hp'
    · rw [Memory.read_loadProgram_outside order ps _ (fun r hr => hw r (by simp [hr])),
        Memory.read_loadWords order _ _ _ (hw p (by simp)) hk hj]
      intro r hr
      have := hd.1 r.region (List.mem_map_of_mem hr)
      rw [Region.disjoint_iff] at this
      simp only [ProgramPart.region] at this
      omega
    · exact ih _ (fun r hr => hw r (by simp [hr])) hd.2 hp'

end Sys2Proof.Machine
end

