-- ==== Sys2Proof/Laws/State.lean ====
section
/-! SUPPORT. One lemma per field per update of State, so that no proof unfolds a record update. -/

namespace Sys2Proof.Machine

@[simp] theorem State.setPc_regs (s : State) (t : Word) : (s.setPc t).regs = s.regs := rfl
@[simp] theorem State.setPc_pc (s : State) (t : Word) : (s.setPc t).pc = t := rfl
@[simp] theorem State.setPc_mem (s : State) (t : Word) : (s.setPc t).mem = s.mem := rfl
@[simp] theorem State.setPc_cfg (s : State) (t : Word) : (s.setPc t).cfg = s.cfg := rfl
@[simp] theorem State.setPc_isZeroReg (s : State) (t : Word) (i : RegIdx) :
    (s.setPc t).isZeroReg i = s.isZeroReg i := rfl
@[simp] theorem State.setPc_readReg (s : State) (t : Word) (i : RegIdx) : (s.setPc t).readReg i = s.readReg i := rfl
@[simp] theorem State.setPc_byteAt (s : State) (t a : Word) : (s.setPc t).byteAt a = s.byteAt a := rfl

@[simp] theorem State.advance_regs (s : State) : s.advance.regs = s.regs := rfl
@[simp] theorem State.advance_pc (s : State) : s.advance.pc = s.pc + 4#32 := rfl
@[simp] theorem State.advance_mem (s : State) : s.advance.mem = s.mem := rfl
@[simp] theorem State.advance_cfg (s : State) : s.advance.cfg = s.cfg := rfl
@[simp] theorem State.advance_readReg (s : State) (i : RegIdx) : s.advance.readReg i = s.readReg i := rfl
@[simp] theorem State.advance_byteAt (s : State) (a : Word) : s.advance.byteAt a = s.byteAt a := rfl

@[simp] theorem State.writeReg_pc (s : State) (i : RegIdx) (v : Word) : (s.writeReg i v).pc = s.pc := by
  unfold State.writeReg; split <;> rfl
@[simp] theorem State.writeReg_mem (s : State) (i : RegIdx) (v : Word) : (s.writeReg i v).mem = s.mem := by
  unfold State.writeReg; split <;> rfl
@[simp] theorem State.writeReg_cfg (s : State) (i : RegIdx) (v : Word) : (s.writeReg i v).cfg = s.cfg := by
  unfold State.writeReg; split <;> rfl
@[simp] theorem State.writeReg_byteAt (s : State) (i : RegIdx) (v a : Word) :
    (s.writeReg i v).byteAt a = s.byteAt a := by
  simp [State.byteAt]

@[simp] theorem State.setByte_regs (s : State) (a : Word) (b : Byte) : (s.setByte a b).regs = s.regs := rfl
@[simp] theorem State.setByte_pc (s : State) (a : Word) (b : Byte) : (s.setByte a b).pc = s.pc := rfl
@[simp] theorem State.setByte_cfg (s : State) (a : Word) (b : Byte) : (s.setByte a b).cfg = s.cfg := rfl
@[simp] theorem State.setByte_readReg (s : State) (a : Word) (b : Byte) (i : RegIdx) :
    (s.setByte a b).readReg i = s.readReg i := rfl

@[simp] theorem State.write8_regs (s : State) (a : Word) (v : BitVec 8) : (s.write8 a v).regs = s.regs := rfl
@[simp] theorem State.write8_pc (s : State) (a : Word) (v : BitVec 8) : (s.write8 a v).pc = s.pc := rfl
@[simp] theorem State.write8_cfg (s : State) (a : Word) (v : BitVec 8) : (s.write8 a v).cfg = s.cfg := rfl

@[simp] theorem State.write16_regs (s : State) (a : Word) (v : BitVec 16) : (s.write16 a v).regs = s.regs := by
  unfold State.write16; split <;> rfl
@[simp] theorem State.write16_pc (s : State) (a : Word) (v : BitVec 16) : (s.write16 a v).pc = s.pc := by
  unfold State.write16; split <;> rfl
@[simp] theorem State.write16_cfg (s : State) (a : Word) (v : BitVec 16) : (s.write16 a v).cfg = s.cfg := by
  unfold State.write16; split <;> rfl

@[simp] theorem State.write32_regs (s : State) (a : Word) (v : BitVec 32) : (s.write32 a v).regs = s.regs := rfl
@[simp] theorem State.write32_pc (s : State) (a : Word) (v : BitVec 32) : (s.write32 a v).pc = s.pc := rfl
@[simp] theorem State.write32_cfg (s : State) (a : Word) (v : BitVec 32) : (s.write32 a v).cfg = s.cfg := rfl

@[simp] theorem State.withFetchWord_regs (s : State) (nbits w : Nat) : (s.withFetchWord nbits w).regs = s.regs := rfl
@[simp] theorem State.withFetchWord_pc (s : State) (nbits w : Nat) : (s.withFetchWord nbits w).pc = s.pc := rfl
@[simp] theorem State.withFetchWord_byteOrder (s : State) (nbits w : Nat) :
    (s.withFetchWord nbits w).cfg.byteOrder = s.cfg.byteOrder := rfl

@[simp] theorem State.resetOf_pc (l : Launch) : (State.resetOf l).pc = l.cfg.resetPc := rfl
@[simp] theorem State.resetOf_cfg (l : Launch) : (State.resetOf l).cfg = l.cfg := rfl
@[simp] theorem State.resetOf_mem (l : Launch) :
    (State.resetOf l).mem = Memory.loadProgram l.cfg.byteOrder l.data l.program := rfl

end Sys2Proof.Machine
end

