-- ==== Sys2Proof/Laws/Ops.lean ====
section
/-! SUPPORT. What each shared operation does, said once: later proofs cite these and unfold nothing. -/

namespace Sys2Proof.Machine

/-! ## Registers -/

/-- What a register reads after a write to a register. -/
theorem State.readReg_writeReg (s : State) (i j : RegIdx) (v : Word) :
    (s.writeReg i v).readReg j = if j = i ∧ s.isZeroReg i = false then v else s.readReg j := by
  by_cases hz : s.isZeroReg i = true
  · simp [State.writeReg, hz]
  · have hz' : s.isZeroReg i = false := by simpa using hz
    by_cases hj : j = i
    · subst hj
      have : State.isZeroReg { s with regs := s.regs.set j v } j = false := hz'
      simp [State.writeReg, State.readReg, hz', this]
    · have hij : i.val ≠ j.val := fun e => hj (Fin.ext e.symm)
      have : State.isZeroReg { s with regs := s.regs.set i v } j = s.isZeroReg j := rfl
      simp [State.writeReg, State.readReg, hz', hj, this, Vector.getElem_set_ne, hij]

/-- A register number other than the written one reads as before. -/
theorem State.readReg_writeReg_ne (s : State) {i j : RegIdx} (v : Word) (h : j ≠ i) :
    (s.writeReg i v).readReg j = s.readReg j := by
  simp [State.readReg_writeReg, h]

/-- The zero register keeps its stored zero under every write. -/
theorem State.writeReg_zero_entry (s : State) (i : RegIdx) (v : Word) (hx : s.cfg.x0Zero = true)
    (h : s.regs[0] = 0#32) : (s.writeReg i v).regs[0] = 0#32 := by
  unfold State.writeReg
  split
  · exact h
  · rename_i hz
    have hi : i ≠ 0 := fun e => hz (by simp [State.isZeroReg, hx, e])
    have : i.val ≠ 0 := fun e => hi (Fin.ext e)
    simpa [Vector.getElem_set_ne, this] using h

/-! ## Memory -/

@[simp] theorem State.byteAt_setByte_self (s : State) (a : Word) (b : Byte) : (s.setByte a b).byteAt a = b := by
  simp [State.byteAt, State.setByte]

theorem State.byteAt_setByte_ne (s : State) {a x : Word} (b : Byte) (h : x ≠ a) :
    (s.setByte a b).byteAt x = s.byteAt x := by
  have : x.toNat ≠ a.toNat := fun e => h (BitVec.eq_of_toNat_eq e)
  simp [State.byteAt, State.setByte, Memory.read_write_ne _ _ this]

theorem State.setByte_wf (s : State) (a : Word) (b : Byte) (h : Memory.wf s.mem = true) :
    Memory.wf (s.setByte a b).mem = true :=
  Memory.wf_write b a.isLt h

theorem State.write8_wf (s : State) (a : Word) (v : BitVec 8) (h : Memory.wf s.mem = true) :
    Memory.wf (s.write8 a v).mem = true :=
  State.setByte_wf s a v h

theorem State.write16_wf (s : State) (a : Word) (v : BitVec 16) (h : Memory.wf s.mem = true) :
    Memory.wf (s.write16 a v).mem = true := by
  unfold State.write16
  split <;> exact State.setByte_wf _ _ _ (State.setByte_wf _ _ _ h)

theorem State.write32_wf (s : State) (a : Word) (v : BitVec 32) (h : Memory.wf s.mem = true) :
    Memory.wf (s.write32 a v).mem = true :=
  State.setByte_wf _ _ _ (State.setByte_wf _ _ _ (State.setByte_wf _ _ _ (State.setByte_wf _ _ _ h)))

/-- A 2-byte store leaves every byte outside its two alone. -/
theorem State.byteAt_write16_ne (s : State) {a x : Word} (v : BitVec 16) (h0 : x ≠ a) (h1 : x ≠ a + 1#32) :
    (s.write16 a v).byteAt x = s.byteAt x := by
  unfold State.write16
  split <;> rw [State.byteAt_setByte_ne _ _ h1, State.byteAt_setByte_ne _ _ h0]

/-- A 4-byte store leaves every byte outside its four alone. -/
theorem State.byteAt_write32_ne (s : State) {a x : Word} (v : BitVec 32) (h0 : x ≠ a) (h1 : x ≠ a + 1#32)
    (h2 : x ≠ a + 2#32) (h3 : x ≠ a + 3#32) : (s.write32 a v).byteAt x = s.byteAt x := by
  simp only [State.write32]
  rw [State.byteAt_setByte_ne _ _ h3, State.byteAt_setByte_ne _ _ h2, State.byteAt_setByte_ne _ _ h1,
    State.byteAt_setByte_ne _ _ h0]

/-- The bytes of a 2-byte store. -/
theorem State.byteAt_write16 (s : State) (a : Word) (v : BitVec 16) {k : Nat} (hk : k < 2) :
    (s.write16 a v).byteAt (a + BitVec.ofNat 32 k) =
      v.extractLsb' (8 * (if s.cfg.byteOrder = .little then k else 1 - k)) 8 := by
  have h01 : a ≠ a + 1#32 := by simp
  unfold State.write16
  have : k = 0 ∨ k = 1 := by omega
  rcases this with rfl | rfl <;> cases s.cfg.byteOrder <;> simp [State.byteAt_setByte_ne _ _ h01]

/-- Offsets below 4 lead to different addresses. -/
theorem add_offset_ne (a : Word) {j k : Nat} (hj : j < 4) (hk : k < 4) (h : j ≠ k) :
    a + BitVec.ofNat 32 j ≠ a + BitVec.ofNat 32 k := by
  intro e
  have := congrArg BitVec.toNat (add_left_cancel e)
  simp at this
  omega

/-- The bytes of a 4-byte store. -/
theorem State.byteAt_write32 (s : State) (a : Word) (v : BitVec 32) {k : Nat} (hk : k < 4) :
    (s.write32 a v).byteAt (a + BitVec.ofNat 32 k) = byteOfWord s.cfg.byteOrder v k := by
  have h01 : a ≠ a + 1#32 := by simp
  have h02 : a ≠ a + 2#32 := by simp
  have h03 : a ≠ a + 3#32 := by simp
  have h12 : a + 1#32 ≠ a + 2#32 := add_offset_ne a (j := 1) (k := 2) (by omega) (by omega) (by omega)
  have h13 : a + 1#32 ≠ a + 3#32 := add_offset_ne a (j := 1) (k := 3) (by omega) (by omega) (by omega)
  have h23 : a + 2#32 ≠ a + 3#32 := add_offset_ne a (j := 2) (k := 3) (by omega) (by omega) (by omega)
  unfold State.write32
  have : k = 0 ∨ k = 1 ∨ k = 2 ∨ k = 3 := by omega
  rcases this with rfl | rfl | rfl | rfl <;> simp [State.byteAt_setByte_ne, h01, h02, h03, h12, h13, h23]

/-- A byte that is admitted for stores cannot be fetched. -/
theorem admitByte_store_not_fetch {c : Config} {a : Word} (h : admitByte c .store a = true) :
    admitByte c .fetch a = false := by
  simp only [admitByte, Bool.and_eq_true, Bool.not_eq_true'] at h ⊢
  exact h.2

/-- A byte of `TEXT` is admitted for fetches. -/
theorem admitByte_fetch_of_text {c : Config} {a : Word} (h : inRegions c.text a.toNat = true) :
    admitByte c .fetch a = true := by
  simp [admitByte, fetchableByte, h]

/-- A byte that is admitted for stores lies outside `TEXT`. -/
theorem admitByte_store_not_text {c : Config} {a : Word} (h : admitByte c .store a = true) :
    inRegions c.text a.toNat = false := by
  cases ht : inRegions c.text a.toNat
  · rfl
  · have := admitByte_store_not_fetch h
    rw [admitByte_fetch_of_text ht] at this
    cases this

/-- An admitted access is admitted byte by byte. -/
theorem admits_byte {c : Config} {addr : Word} {n : Nat} {k : AccessKind} (h : admits c addr n k = true) {i : Nat}
    (hi : i < n) : admitByte c k (addr + BitVec.ofNat 32 i) = true :=
  List.all_eq_true.1 h i (List.mem_range.2 hi)

/-! ## Alignment, as the remainder of the address -/

theorem isMultipleOf4_iff (a : Word) : isMultipleOf4 a = true ↔ a.toNat % 4 = 0 := by
  rw [isMultipleOf4, beq_iff_eq, ← BitVec.toNat_inj, BitVec.extractLsb'_toNat]
  simp

theorem isAligned_iff (a : Word) (w : AccessWidth) : isAligned a w = true ↔ a.toNat % widthBytes w = 0 := by
  cases w
  · simp [isAligned, widthBytes, Nat.mod_one]
  · rw [isAligned, beq_iff_eq, ← BitVec.toNat_inj, BitVec.extractLsb'_toNat]
    simp [widthBytes]
  · exact isMultipleOf4_iff a

theorem State.alignmentOk_iff (s : State) (a : Word) (w : AccessWidth) :
    s.alignmentOk a w = true ↔ s.cfg.misalignedData = .split ∨ a.toNat % widthBytes w = 0 := by
  simp [State.alignmentOk, isAligned_iff]

/-! ## Outcomes of the shared forms -/

/-- A misaligned target faults, whatever the parameter's value. -/
@[simp] theorem onMisalignedTarget_eq (policy : MisalignedTarget) (target : Word) :
    onMisalignedTarget policy target = .fault (.misalignedFetch target) := by
  cases policy; rfl

/-- All that a jump can do. -/
theorem jumpTo_cases (target : Word) (u : State) :
    (target.toNat % 4 = 0 ∧ jumpTo target u = .next (u.setPc target)) ∨
      (target.toNat % 4 ≠ 0 ∧ jumpTo target u = .fault (.misalignedFetch target)) := by
  by_cases h : target.toNat % 4 = 0
  · exact .inl ⟨h, by simp [jumpTo, (isMultipleOf4_iff target).2 h]⟩
  · exact .inr ⟨h, by simp [jumpTo, isMultipleOf4_iff, h]⟩

/-- All that a load can do. -/
theorem loadWith_cases (w : AccessWidth) (addr : Word) (rd : RegIdx) (v : Word) (s : State) :
    (s.alignmentOk addr w = true ∧ admits s.cfg addr (widthBytes w) .load = true ∧
        loadWith w addr rd v s = writeResult rd v s) ∨
      (s.alignmentOk addr w = false ∧ loadWith w addr rd v s = .fault (.misalignedLoad addr)) ∨
      (s.alignmentOk addr w = true ∧ admits s.cfg addr (widthBytes w) .load = false ∧
        loadWith w addr rd v s = .fault (.accessFault .load addr)) := by
  unfold loadWith State.loadFault
  cases s.alignmentOk addr w <;> cases admits s.cfg addr (widthBytes w) .load <;> simp [raise]

/-- All that a store can do. -/
theorem storeWith_cases (w : AccessWidth) (addr : Word) (u s : State) :
    (s.alignmentOk addr w = true ∧ admits s.cfg addr (widthBytes w) .store = true ∧
        storeWith w addr u s = .next u.advance) ∨
      (s.alignmentOk addr w = false ∧ storeWith w addr u s = .fault (.misalignedStore addr)) ∨
      (s.alignmentOk addr w = true ∧ admits s.cfg addr (widthBytes w) .store = false ∧
        storeWith w addr u s = .fault (.accessFault .store addr)) := by
  unfold storeWith State.storeFault
  cases s.alignmentOk addr w <;> cases admits s.cfg addr (widthBytes w) .store <;> simp [raise]

/-- What `writeResult` can do. -/
theorem writeResult_next {rd : RegIdx} {v : Word} {s t : State} (h : writeResult rd v s = .next t) :
    t = (s.writeReg rd v).advance := by
  cases h; rfl

/-- What `jumpTo` can do, if it answers a next state. -/
theorem jumpTo_next {target : Word} {u t : State} (h : jumpTo target u = .next t) :
    isMultipleOf4 target = true ∧ t = u.setPc target := by
  unfold jumpTo at h
  split at h
  · rename_i hm; cases h; exact ⟨hm, rfl⟩
  · rw [onMisalignedTarget_eq] at h; cases h

/-- What `branchIf` can do, if it answers a next state. -/
theorem branchIf_next {taken : Bool} {off : BitVec 13} {s t : State} (h : branchIf taken off s = .next t) :
    (taken = true ∧ isMultipleOf4 (s.pc + immB off) = true ∧ t = s.setPc (s.pc + immB off)) ∨
      (taken = false ∧ t = s.advance) := by
  unfold branchIf at h
  split at h
  · rename_i ht
    obtain ⟨hm, rfl⟩ := jumpTo_next h
    exact .inl ⟨ht, hm, rfl⟩
  · rename_i ht
    cases h
    exact .inr ⟨by simpa using ht, rfl⟩

/-- What a load can do, if it answers a next state. -/
theorem loadWith_next {w : AccessWidth} {addr : Word} {rd : RegIdx} {v : Word} {s t : State}
    (h : loadWith w addr rd v s = .next t) :
    s.loadFault addr w = none ∧ t = (s.writeReg rd v).advance := by
  unfold loadWith at h
  split at h
  · cases h
  · rename_i hf; exact ⟨hf, writeResult_next h⟩

/-- What a store can do, if it answers a next state. -/
theorem storeWith_next {w : AccessWidth} {addr : Word} {u s t : State} (h : storeWith w addr u s = .next t) :
    s.storeFault addr w = none ∧ t = u.advance := by
  unfold storeWith at h
  split at h
  · cases h
  · rename_i hf; cases h; exact ⟨hf, rfl⟩

/-- A store that does not stop is admitted. -/
theorem storeFault_none {s : State} {addr : Word} {w : AccessWidth} (h : s.storeFault addr w = none) :
    s.alignmentOk addr w = true ∧ admits s.cfg addr (widthBytes w) .store = true := by
  unfold State.storeFault at h
  split at h
  · cases h
  · split at h
    · cases h
    · rename_i h1 h2; exact ⟨by simpa using h1, by simpa using h2⟩

/-- A load that does not stop is admitted. -/
theorem loadFault_none {s : State} {addr : Word} {w : AccessWidth} (h : s.loadFault addr w = none) :
    s.alignmentOk addr w = true ∧ admits s.cfg addr (widthBytes w) .load = true := by
  unfold State.loadFault at h
  split at h
  · cases h
  · split at h
    · cases h
    · rename_i h1 h2; exact ⟨by simpa using h1, by simpa using h2⟩

end Sys2Proof.Machine
end

