-- ==== Sys2Proof/Laws/Launch.lean ====
section
/-! SUPPORT. What the state after a reset holds, said once for every launch (70_reset_and_hazards.md rules R241, R243). -/

namespace Sys2Proof.Machine

theorem inRegions_iff (rs : List Region) (a : Nat) :
    inRegions rs a = true ↔ ∃ r ∈ rs, r.base ≤ a ∧ a < r.base + r.size := by
  simp [inRegions]

/-- The conditions of a well-formed launch, each by itself. -/
theorem Launch.wellFormed_iff (l : Launch) : l.wellFormed = true ↔
    l.cfg.wellFormed = true ∧ l.cfg.text = l.program.map ProgramPart.region ∧
      (∀ p ∈ l.program, p.base.toNat % 4 = 0 ∧ p.base.toNat + 4 * p.words.length ≤ 4294967296) ∧
      pairwiseDisjoint (l.program.map ProgramPart.region) = true ∧ Memory.wf l.data = true := by
  have h (a : Word) : (a.extractLsb' 0 2 == 0#2) = true ↔ a.toNat % 4 = 0 := isMultipleOf4_iff a
  simp only [Launch.wellFormed, Bool.and_eq_true, List.all_eq_true, h, decide_eq_true_eq, and_assoc]

/-- Reset keeps the canonical form of the data memory. -/
theorem State.wf_resetOf {l : Launch} (h : Memory.wf l.data = true) : Memory.wf (State.resetOf l).mem = true :=
  Memory.wf_loadProgram _ _ h

/-- Off `TEXT` memory is the launch's data memory. -/
theorem State.byteAt_resetOf_off_text {l : Launch} (h : l.wellFormed = true) {a : Word}
    (ha : inRegions l.cfg.text a.toNat = false) : (State.resetOf l).byteAt a = Memory.read l.data a.toNat := by
  obtain ⟨-, ht, hw, -, -⟩ := (Launch.wellFormed_iff l).1 h
  refine Memory.read_loadProgram_outside _ _ _ (fun p hp => (hw p hp).2) (fun p hp => ?_)
  by_contra hn
  have : inRegions l.cfg.text a.toNat = true :=
    (inRegions_iff _ _).2 ⟨p.region, ht ▸ List.mem_map_of_mem hp, by simp only [ProgramPart.region]; omega⟩
  rw [ha] at this
  cases this

/-- On `TEXT` memory is the program: byte `j` of word `k` of a part. -/
theorem State.byteAt_resetOf_program {l : Launch} (h : l.wellFormed = true) {p : ProgramPart} (hp : p ∈ l.program)
    {k j : Nat} (hk : k < p.words.length) (hj : j < 4) :
    (State.resetOf l).byteAt (p.base + BitVec.ofNat 32 (4 * k + j)) = byteOfWord l.cfg.byteOrder p.words[k] j := by
  obtain ⟨-, -, hw, hd, -⟩ := (Launch.wellFormed_iff l).1 h
  have hb := (hw p hp).2
  have e : (p.base + BitVec.ofNat 32 (4 * k + j)).toNat = p.base.toNat + 4 * k + j := by
    simp only [BitVec.toNat_add, BitVec.toNat_ofNat]
    omega
  rw [State.byteAt, e]
  exact Memory.read_loadProgram _ _ _ (fun q hq => (hw q hq).2) hd hp hk hj

/-- The registers after a reset. -/
theorem State.readReg_resetOf (l : Launch) (r : RegIdx) :
    (State.resetOf l).readReg r = if l.cfg.x0Zero = true ∧ r = 0 then 0#32 else l.regs[r] := by
  by_cases hx : l.cfg.x0Zero = true
  · by_cases hr : r = 0
    · simp [State.readReg, State.isZeroReg, State.resetOf, hx, hr]
    · have h0 : (0 : Nat) ≠ r.val := fun e => hr (Fin.ext e.symm)
      simp [State.readReg, State.isZeroReg, State.resetOf, hx, hr, Vector.getElem_set_ne, h0]
  · simp [State.readReg, State.isZeroReg, State.resetOf, hx]

end Sys2Proof.Machine
end

