-- ==== Sys2Proof/Laws/Step.lean ====
section
/-! SUPPORT. What the front of a step can do, said once. -/

namespace Sys2Proof.Machine

/-- A word that is no instruction faults, whatever the parameter's value. -/
@[simp] theorem onIllegalWord_eq (policy : IllegalWord) (inst : Word) :
    onIllegalWord policy inst = .fault (.illegalInstruction inst) := by
  cases policy; rfl

/-- If the fetch and decode lead on to a next state, the pc was aligned, the fetch was admitted, and the decoded
instruction gave that state. -/
theorem fetchAndRun_next {s t : State} {run : Instr → Result} (h : fetchAndRun s run = .next t) :
    isMultipleOf4 s.pc = true ∧ admits s.cfg s.pc 4 .fetch = true ∧
      ∃ i, decode s.cfg s.fetchWord = .ok i ∧ run i = .next t := by
  unfold fetchAndRun at h
  split at h
  · cases h
  · split at h
    · cases h
    · split at h
      · rw [onIllegalWord_eq] at h; cases h
      · rename_i h1 h2 _ i hi
        exact ⟨by simpa using h1, by simpa using h2, i, hi, h⟩

/-- A step that answers a next state is the meaning of the decoded instruction. -/
theorem step_next {s t : State} (h : step s = .next t) :
    isMultipleOf4 s.pc = true ∧ admits s.cfg s.pc 4 .fetch = true ∧
      ∃ i, decode s.cfg s.fetchWord = .ok i ∧ exec i s = .next t :=
  fetchAndRun_next h

/-- One step of a run, then the others. -/
theorem core_run_succ (k : Nat) (s : State) :
    Host.Core.run Sys2Proof.core (k + 1) s =
      (match step s with
        | .next t => Host.Core.run Sys2Proof.core k t
        | .fault f => .fault f
        | .refused r => .refused r : Host.Outcome State Fault Refusal) := by
  refine (Host.Core.run.eq_2 Sys2Proof.core s k).trans ?_
  have e : Sys2Proof.core.step s = step s := rfl
  generalize step s = o at e ⊢
  rw [e]
  cases o <;> rfl

/-- A run that answers a state was a step and then a shorter run. -/
theorem core_run_next {k : Nat} {s t : State} (h : Host.Core.run Sys2Proof.core (k + 1) s = .next t) :
    ∃ u, step s = .next u ∧ Host.Core.run Sys2Proof.core k u = .next t := by
  rw [core_run_succ] at h
  split at h
  · rename_i u hu; exact ⟨u, hu, h⟩
  · cases h
  · cases h

end Sys2Proof.Machine
end

