-- ==== Sys2Proof/Tests/Slice0.lean ====
section
/-! SUPPORT. Tests of the model against the vectors of 95_test_vectors.md, and a witness for the hypotheses of every
statement. Every expected word and value is copied from the section of the spec that the comment above it names. -/

namespace Sys2Proof.Tests

open Sys2Proof Sys2Proof.Machine Sys2Proof.Claims

/-! ## Helpers -/

/-- The configuration of the vectors: that of `State.reset`. -/
abbrev std : Config := Config.initial

/-- The reset state with `x[1]`, `x[2]` given and `x[3] = 0x55555555`, as section 4 sets it. -/
def start (a b : Word) : State := ((State.reset.writeReg 1 a).writeReg 2 b).writeReg 3 0x55555555#32

/-- What a step from a state with the word loaded at the pc shows, if it answers a next state. -/
def shows (s : State) (word : Nat) (view : State → Word) : Option Word :=
  match step (s.withFetchWord 32 word) with
  | .next t => some (view t)
  | _ => none

/-- `x[3]` after the word, from `x[1] = a` and `x[2] = b`. -/
def x3 (word : Nat) (a b : Word) : Option Word := shows (start a b) word (fun t => t.readReg 3)

/-- The pc after the word, from `x[1] = a` and `x[2] = b`. -/
def pcAfter (word : Nat) (a b : Word) : Option Word := shows (start a b) word (fun t => t.pc)

/-- The fault of a step from a state with the word loaded at the pc. -/
def faultOf (s : State) (word : Nat) : Option Fault :=
  match step (s.withFetchWord 32 word) with
  | .fault f => some f
  | _ => none

/-- An outcome is a next state. -/
def isNext (r : Result) : Bool :=
  match r with
  | .next _ => true
  | _ => false

/-- The four bytes at 0x2000, and the four above them, of sections 4.14 and 4.15. -/
def dataState : State :=
  (((start 0 0x00002000#32).writeReg 3 0x12345678#32).write32 0x00002000#32 0x00FF7F80#32).write32 0x00002004#32
    0x12345678#32

/-- Section 4.16: 0x8000 to 0x8FFF is absent for every kind of access; the registers are those of the section. -/
def faultState : State :=
  let s := (((start 0 0x00002000#32).writeReg 3 0x12345678#32).writeReg 4 0x00008000#32).writeReg 5 0x00001000#32
  let s := s.writeReg 6 0x00008001#32
  let present : List Region := [⟨0, 0x8000⟩, ⟨0x9000, 4294930432⟩]
  { s with cfg := { s.cfg with loadable := present, storable := present } }

/-! ## WellFormed refuses what the encoding cannot hold -/

theorem test_odd_jal_offset_refused : (Instr.jal 1 0x801#21).wellFormed = false := by decide
theorem test_even_jal_offset_accepted : (Instr.jal 1 0x800#21).wellFormed = true := by decide
theorem test_odd_branch_offsets_refused :
    (Instr.beq 1 2 0x1#13).wellFormed = false ∧ (Instr.bne 1 2 0x1FFF#13).wellFormed = false ∧
    (Instr.blt 1 2 0x3#13).wellFormed = false ∧ (Instr.bge 1 2 0x1#13).wellFormed = false ∧
    (Instr.bltu 1 2 0x1#13).wellFormed = false ∧ (Instr.bgeu 1 2 0x1#13).wellFormed = false := by decide
theorem test_even_branch_offset_accepted : (Instr.beq 1 2 0x1FFE#13).wellFormed = true := by decide
theorem test_misaligned_reset_pc_refused :
    ({ Config.initial with resetPc := 0x1002#32 } : Config).wellFormed = false := by
  decide
theorem test_other_widths_refused :
    ({ Config.initial with pcLen := 16 } : Config).wellFormed = false ∧
    ({ Config.initial with aLen := 33 } : Config).wellFormed = false := by
  decide
theorem test_shared_encodings_refused :
    ({ Config.initial with jalOpcode := 0b1100011#7 } : Config).wellFormed = false ∧
    ({ Config.initial with jalOpcode := 0b1101100#7 } : Config).wellFormed = false ∧
    ({ Config.initial with bltFunct3 := 0b000#3 } : Config).wellFormed = false ∧
    ({ Config.initial with bgeuFunct3 := 0b110#3 } : Config).wellFormed = false ∧
    ({ Config.initial with bgeuFunct3 := 0b100#3 } : Config).wellFormed = false := by
  decide
theorem test_misaligned_halt_pc_refused :
    ({ Config.initial with haltPc := 0x1001#32 } : Config).wellFormed = false := by
  decide

/-! ## Decoding: section 2. Each word reads as the instruction, and the instruction is written as the word. -/

theorem test_decode_lui :
    decode std 0xABCDE2B7#32 = .ok (.lui 5 0xABCDE#20) ∧ encode std (.lui 5 0xABCDE#20) = 0xABCDE2B7#32 := by decide
theorem test_decode_auipc :
    decode std 0xFFFFF297#32 = .ok (.auipc 5 0xFFFFF#20) ∧ encode std (.auipc 5 0xFFFFF#20) = 0xFFFFF297#32 := by decide
theorem test_decode_add :
    decode std 0x002081B3#32 = .ok (.add 3 1 2) ∧ encode std (.add 3 1 2) = 0x002081B3#32 := by decide
theorem test_decode_addi :
    decode std 0xFFF00093#32 = .ok (.addi 1 0 0xFFF#12) ∧ encode std (.addi 1 0 0xFFF#12) = 0xFFF00093#32 := by decide
theorem test_decode_sub :
    decode std 0x402081B3#32 = .ok (.sub 3 1 2) ∧ encode std (.sub 3 1 2) = 0x402081B3#32 := by decide
theorem test_decode_mul :
    decode std 0x022081B3#32 = .ok (.mul 3 1 2) ∧ encode std (.mul 3 1 2) = 0x022081B3#32 := by decide
theorem test_decode_mulh :
    decode std 0x022091B3#32 = .ok (.mulh 3 1 2) ∧ encode std (.mulh 3 1 2) = 0x022091B3#32 := by decide
theorem test_decode_mulhsu :
    decode std 0x0220A1B3#32 = .ok (.mulhsu 3 1 2) ∧ encode std (.mulhsu 3 1 2) = 0x0220A1B3#32 := by decide
theorem test_decode_mulhu :
    decode std 0x0220B1B3#32 = .ok (.mulhu 3 1 2) ∧ encode std (.mulhu 3 1 2) = 0x0220B1B3#32 := by decide
theorem test_decode_div :
    decode std 0x0220C1B3#32 = .ok (.div 3 1 2) ∧ encode std (.div 3 1 2) = 0x0220C1B3#32 := by decide
theorem test_decode_divu :
    decode std 0x0220D1B3#32 = .ok (.divu 3 1 2) ∧ encode std (.divu 3 1 2) = 0x0220D1B3#32 := by decide
theorem test_decode_rem :
    decode std 0x0220E1B3#32 = .ok (.rem 3 1 2) ∧ encode std (.rem 3 1 2) = 0x0220E1B3#32 := by decide
theorem test_decode_remu :
    decode std 0x0220F1B3#32 = .ok (.remu 3 1 2) ∧ encode std (.remu 3 1 2) = 0x0220F1B3#32 := by decide
theorem test_decode_xor :
    decode std 0x0020C1B3#32 = .ok (.xor 3 1 2) ∧ encode std (.xor 3 1 2) = 0x0020C1B3#32 := by decide
theorem test_decode_xori :
    decode std 0xFFF0C193#32 = .ok (.xori 3 1 0xFFF#12) ∧ encode std (.xori 3 1 0xFFF#12) = 0xFFF0C193#32 := by decide
theorem test_decode_or :
    decode std 0x0020E1B3#32 = .ok (.or 3 1 2) ∧ encode std (.or 3 1 2) = 0x0020E1B3#32 := by decide
theorem test_decode_ori :
    decode std 0x5550E193#32 = .ok (.ori 3 1 0x555#12) ∧ encode std (.ori 3 1 0x555#12) = 0x5550E193#32 := by decide
theorem test_decode_and :
    decode std 0x0020F1B3#32 = .ok (.and 3 1 2) ∧ encode std (.and 3 1 2) = 0x0020F1B3#32 := by decide
theorem test_decode_andi :
    decode std 0x0FF0F193#32 = .ok (.andi 3 1 0x0FF#12) ∧ encode std (.andi 3 1 0x0FF#12) = 0x0FF0F193#32 := by decide
theorem test_decode_sll :
    decode std 0x002091B3#32 = .ok (.sll 3 1 2) ∧ encode std (.sll 3 1 2) = 0x002091B3#32 := by decide
theorem test_decode_slli :
    decode std 0x01F09193#32 = .ok (.slli 3 1 31#5) ∧ encode std (.slli 3 1 31#5) = 0x01F09193#32 := by decide
theorem test_decode_srl :
    decode std 0x0020D1B3#32 = .ok (.srl 3 1 2) ∧ encode std (.srl 3 1 2) = 0x0020D1B3#32 := by decide
theorem test_decode_srli :
    decode std 0x0040D193#32 = .ok (.srli 3 1 4#5) ∧ encode std (.srli 3 1 4#5) = 0x0040D193#32 := by decide
theorem test_decode_sra :
    decode std 0x4020D1B3#32 = .ok (.sra 3 1 2) ∧ encode std (.sra 3 1 2) = 0x4020D1B3#32 := by decide
theorem test_decode_srai :
    decode std 0x4040D193#32 = .ok (.srai 3 1 4#5) ∧ encode std (.srai 3 1 4#5) = 0x4040D193#32 := by decide
theorem test_decode_slt :
    decode std 0x0020A1B3#32 = .ok (.slt 3 1 2) ∧ encode std (.slt 3 1 2) = 0x0020A1B3#32 := by decide
theorem test_decode_slti :
    decode std 0xFFB0A193#32 = .ok (.slti 3 1 0xFFB#12) ∧ encode std (.slti 3 1 0xFFB#12) = 0xFFB0A193#32 := by decide
theorem test_decode_sltiu :
    decode std 0x0010B193#32 = .ok (.sltiu 3 1 1#12) ∧ encode std (.sltiu 3 1 1#12) = 0x0010B193#32 := by decide
theorem test_decode_sltu :
    decode std 0x0020B1B3#32 = .ok (.sltu 3 1 2) ∧ encode std (.sltu 3 1 2) = 0x0020B1B3#32 := by decide
theorem test_decode_jal :
    decode std 0x001000EF#32 = .ok (.jal 1 0x800#21) ∧ encode std (.jal 1 0x800#21) = 0x001000EF#32 := by decide
theorem test_decode_jalr :
    decode std 0xFFC280E7#32 = .ok (.jalr 1 5 0xFFC#12) ∧ encode std (.jalr 1 5 0xFFC#12) = 0xFFC280E7#32 := by decide
theorem test_decode_beq :
    decode std 0x00208863#32 = .ok (.beq 1 2 16#13) ∧ encode std (.beq 1 2 16#13) = 0x00208863#32 := by decide
theorem test_decode_bne :
    decode std 0xFE209EE3#32 = .ok (.bne 1 2 0x1FFC#13) ∧ encode std (.bne 1 2 0x1FFC#13) = 0xFE209EE3#32 := by decide
theorem test_decode_blt :
    decode std 0x7E20CFE3#32 = .ok (.blt 1 2 0xFFE#13) ∧ encode std (.blt 1 2 0xFFE#13) = 0x7E20CFE3#32 := by decide
theorem test_decode_bge :
    decode std 0x8020D063#32 = .ok (.bge 1 2 0x1000#13) ∧ encode std (.bge 1 2 0x1000#13) = 0x8020D063#32 := by decide
theorem test_decode_bltu :
    decode std 0x0020E0E3#32 = .ok (.bltu 1 2 0x800#13) ∧ encode std (.bltu 1 2 0x800#13) = 0x0020E0E3#32 := by decide
theorem test_decode_bgeu :
    decode std 0x0020F463#32 = .ok (.bgeu 1 2 8#13) ∧ encode std (.bgeu 1 2 8#13) = 0x0020F463#32 := by decide
theorem test_decode_lb :
    decode std 0xFFF10183#32 = .ok (.lb 3 2 0xFFF#12) ∧ encode std (.lb 3 2 0xFFF#12) = 0xFFF10183#32 := by decide
theorem test_decode_lh :
    decode std 0x00211183#32 = .ok (.lh 3 2 2#12) ∧ encode std (.lh 3 2 2#12) = 0x00211183#32 := by decide
theorem test_decode_lbu :
    decode std 0x00014183#32 = .ok (.lbu 3 2 0#12) ∧ encode std (.lbu 3 2 0#12) = 0x00014183#32 := by decide
theorem test_decode_lhu :
    decode std 0x80015183#32 = .ok (.lhu 3 2 0x800#12) ∧ encode std (.lhu 3 2 0x800#12) = 0x80015183#32 := by decide
theorem test_decode_lw :
    decode std 0x7FF12183#32 = .ok (.lw 3 2 0x7FF#12) ∧ encode std (.lw 3 2 0x7FF#12) = 0x7FF12183#32 := by decide
theorem test_decode_sb :
    decode std 0xFE310FA3#32 = .ok (.sb 2 3 0xFFF#12) ∧ encode std (.sb 2 3 0xFFF#12) = 0xFE310FA3#32 := by decide
theorem test_decode_sh :
    decode std 0x00311123#32 = .ok (.sh 2 3 2#12) ∧ encode std (.sh 2 3 2#12) = 0x00311123#32 := by decide
theorem test_decode_sw :
    decode std 0x7BFF2223#32 = .ok (.sw 30 31 0x7A4#12) ∧ encode std (.sw 30 31 0x7A4#12) = 0x7BFF2223#32 := by decide

theorem test_decode_extreme_offsets :
    decode std 0x7FFFF0EF#32 = .ok (.jal 1 0x0FFFFE#21) ∧ decode std 0x800000EF#32 = .ok (.jal 1 0x100000#21) ∧
    decode std 0x000010EF#32 = .ok (.jal 1 0x1000#21) ∧ decode std 0x7E312FA3#32 = .ok (.sw 2 3 0x7FF#12) ∧
    decode std 0x80312023#32 = .ok (.sw 2 3 0x800#12) ∧ decode std 0x01FF8FB3#32 = .ok (.add 31 31 31) := by decide

/-- Section 3: the words of every clause of 60_exceptions.md rule R201. -/
theorem test_illegal_words :
    decode std 0x00000000#32 = .error .opcode ∧ decode std 0xFFFFFFFF#32 = .error .opcode ∧
    decode std 0x00000073#32 = .error .opcode ∧ decode std 0x0FF0000F#32 = .error .opcode ∧
    decode std 0x00000001#32 = .error .opcode ∧ decode std 0x00000002#32 = .error .opcode ∧
    decode std 0x02009193#32 = .error .shiftImmediate ∧ decode std 0x0200D193#32 = .error .shiftImmediate ∧
    decode std 0x4200D193#32 = .error .shiftImmediate ∧ decode std 0x40009193#32 = .error .shiftImmediate ∧
    decode std 0x8000D193#32 = .error .shiftImmediate ∧ decode std 0x402091B3#32 = .error .op ∧
    decode std 0x4020C1B3#32 = .error .op ∧ decode std 0x042081B3#32 = .error .op ∧ decode std 0x7E2081B3#32 = .error .op ∧
    decode std 0x0020A063#32 = .error .branch ∧ decode std 0x0020B063#32 = .error .branch ∧
    decode std 0x00013183#32 = .error .load ∧ decode std 0x00016183#32 = .error .load ∧ decode std 0x00017183#32 = .error .load ∧
    decode std 0x00313023#32 = .error .store ∧ decode std 0x00317023#32 = .error .store ∧
    decode std 0x00009067#32 = .error .jalr := by decide

theorem test_decode_bytes :
    decodeBytes std [0xB3#8, 0x81#8, 0x20#8, 0x00#8, 0x7F#8] = .ok (.add 3 1 2, [0x7F#8]) ∧
    decodeBytes { Config.initial with byteOrder := .big } [0x00#8, 0x20#8, 0x81#8, 0xB3#8] = .ok (.add 3 1 2, []) ∧
    decodeBytes std [0xB3#8, 0x81#8, 0x20#8] = .error .truncated := by decide

/-- The parameters of 00_scope.md rule R8: another opcode for JAL, other funct3 values for BLT and BGEU. -/
theorem test_encoding_parameters :
    decode { std with jalOpcode := 0b0001011#7 } 0x0010008B#32 = .ok (.jal 1 0x800#21) ∧
    decode { std with jalOpcode := 0b0001011#7 } 0x001000EF#32 = .error .opcode ∧
    decode { std with bltFunct3 := 0b010#3, bgeuFunct3 := 0b011#3 } 0x0020A863#32 = .ok (.blt 1 2 16#13) ∧
    decode { std with bltFunct3 := 0b010#3, bgeuFunct3 := 0b011#3 } 0x0020B863#32 = .ok (.bgeu 1 2 16#13) ∧
    decode { std with bltFunct3 := 0b010#3, bgeuFunct3 := 0b011#3 } 0x0020C863#32 = .error .branch := by decide

theorem test_table_word :
    decodeTableWord 32 0x402081B3 = some (.sub 3 1 2) ∧ decodeTableWord 32 0x00000073 = none := by
  decide

/-! ## Meanings: section 4, one step from reset with the word loaded -/

theorem test_lui : shows State.reset 0x800002B7 (fun t => t.readReg 5) = some 0x80000000#32 := by decide
theorem test_lui_x0 : shows State.reset 0xABCDE037 (fun t => t.readReg 0) = some 0#32 := by decide
theorem test_auipc_wraps : shows State.reset 0xFFFFF297 (fun t => t.readReg 5) = some 0x00000000#32 := by decide
theorem test_auipc :
    shows (State.reset.setPc 0x00001038#32) 0x00001797 (fun t => t.readReg 15) = some 0x00002038#32 := by
  decide
theorem test_add_wraps : x3 0x002081B3 0x80000000#32 0x80000000#32 = some 0x00000000#32 := by decide
theorem test_addi_smallest : x3 0x80008193 0x00001000#32 0#32 = some 0x00000800#32 := by decide
theorem test_sub_signs : x3 0x402081B3 0x00000003#32 0xFFFFFFFF#32 = some 0x00000004#32 := by decide
theorem test_mul_low : x3 0x022081B3 0x12345678#32 0x9ABCDEF0#32 = some 0x242D2080#32 := by decide
theorem test_mulh_negative : x3 0x022091B3 0x12345678#32 0x9ABCDEF0#32 = some 0xF8CC93D6#32 := by decide
theorem test_mulh_largest : x3 0x022091B3 0x80000000#32 0x80000000#32 = some 0x40000000#32 := by decide
theorem test_mulhsu_signed_rs1 : x3 0x0220A1B3 0x9ABCDEF0#32 0x12345678#32 = some 0xF8CC93D6#32 := by decide
theorem test_mulhsu_unsigned_rs2 : x3 0x0220A1B3 0x12345678#32 0x9ABCDEF0#32 = some 0x0B00EA4E#32 := by decide
theorem test_mulhu_largest : x3 0x0220B1B3 0xFFFFFFFF#32 0xFFFFFFFF#32 = some 0xFFFFFFFE#32 := by decide
theorem test_div_toward_zero : x3 0x0220C1B3 0xFFFFFFF9#32 0x00000002#32 = some 0xFFFFFFFD#32 := by decide
theorem test_div_overflow : x3 0x0220C1B3 0x80000000#32 0xFFFFFFFF#32 = some 0x80000000#32 := by decide
theorem test_divu_unsigned : x3 0x0220D1B3 0xFFFFFFF9#32 0x00000002#32 = some 0x7FFFFFFC#32 := by decide
theorem test_divu_by_zero : x3 0x0220D1B3 0x00000007#32 0x00000000#32 = some 0xFFFFFFFF#32 := by decide
theorem test_rem_sign_of_dividend : x3 0x0220E1B3 0xFFFFFFF9#32 0xFFFFFFFE#32 = some 0xFFFFFFFF#32 := by decide
theorem test_rem_by_zero : x3 0x0220E1B3 0xFFFFFFF9#32 0x00000000#32 = some 0xFFFFFFF9#32 := by decide
theorem test_remu_unsigned : x3 0x0220F1B3 0xFFFFFFF9#32 0x00000002#32 = some 0x00000001#32 := by decide
theorem test_remu_by_zero : x3 0x0220F1B3 0x00000007#32 0x00000000#32 = some 0x00000007#32 := by decide
theorem test_xor_bits : x3 0x0020C1B3 0xFF00FF00#32 0x0FF00FF0#32 = some 0xF0F0F0F0#32 := by decide
theorem test_xori_sign_extends : x3 0x8000C193 0x00000000#32 0#32 = some 0xFFFFF800#32 := by decide
theorem test_or_bits : x3 0x0020E1B3 0xFF00FF00#32 0x0FF00FF0#32 = some 0xFFF0FFF0#32 := by decide
theorem test_ori_sign_extends : x3 0x8000E193 0x0000F000#32 0#32 = some 0xFFFFF800#32 := by decide
theorem test_and_bits : x3 0x0020F1B3 0xFF00FF00#32 0x0FF00FF0#32 = some 0x0F000F00#32 := by decide
theorem test_andi_sign_extends : x3 0x8000F193 0x12345678#32 0#32 = some 0x12345000#32 := by decide
theorem test_sll_five_bits : x3 0x002091B3 0xFFFFFFFF#32 0x00000024#32 = some 0xFFFFFFF0#32 := by decide
theorem test_slli_largest : x3 0x01F09193 0xFFFFFFFF#32 0#32 = some 0x80000000#32 := by decide
theorem test_srl_five_bits : x3 0x0020D1B3 0xFFFFFFFF#32 0x0000003F#32 = some 0x00000001#32 := by decide
theorem test_srli_zero_fill : x3 0x0010D193 0xFFFFFFFF#32 0#32 = some 0x7FFFFFFF#32 := by decide
theorem test_sra_sign_fill : x3 0x4020D1B3 0x80000000#32 0x00000021#32 = some 0xC0000000#32 := by decide
theorem test_sra_zero_fill : x3 0x4020D1B3 0x7FFFFFFF#32 0x0000001F#32 = some 0x00000000#32 := by decide
theorem test_srai_sign_fill : x3 0x4040D193 0x80000000#32 0#32 = some 0xF8000000#32 := by decide
theorem test_slt_signed : x3 0x0020A1B3 0xFFFFFFFF#32 0x00000001#32 = some 0x00000001#32 := by decide
theorem test_slt_equal : x3 0x0020A1B3 0x00000005#32 0x00000005#32 = some 0x00000000#32 := by decide
theorem test_slti_below : x3 0xFFB0A193 0xFFFFFFFA#32 0#32 = some 0x00000001#32 := by decide
theorem test_slti_not_below : x3 0xFFF0A193 0x00000000#32 0#32 = some 0x00000000#32 := by decide
theorem test_sltiu_sign_extends : x3 0x8000B193 0xFFFFF7FF#32 0#32 = some 0x00000001#32 := by decide
theorem test_sltiu_not_below : x3 0x7FF0B193 0x00000800#32 0#32 = some 0x00000000#32 := by decide
theorem test_sltu_unsigned : x3 0x0020B1B3 0xFFFFFFFF#32 0x00000001#32 = some 0x00000000#32 := by decide
theorem test_sltu_below : x3 0x0020B1B3 0x00000001#32 0xFFFFFFFF#32 = some 0x00000001#32 := by decide
theorem test_add_reads_before_it_writes :
    shows (start 0x40000001#32 0#32) 0x001080B3 (fun t => t.readReg 1) = some 0x80000002#32 := by decide
theorem test_jal_links :
    shows (State.reset.setPc 0x00001008#32) 0x008000EF (fun t => t.readReg 1) = some 0x0000100C#32 := by
  decide
theorem test_jal_jumps :
    shows (State.reset.setPc 0x00001020#32) 0xFF1FF06F (fun t => t.pc) = some 0x00001010#32 := by decide
theorem test_jalr_jumps_to_the_old_register :
    shows ((start 0x00003000#32 0#32).setPc 0x00002000#32) 0x000080E7 (fun t => t.pc) = some 0x00003000#32 := by decide
theorem test_jalr_clears_bit_0 :
    shows ((State.reset.writeReg 5 0x00001001#32).setPc 0x00002000#32) 0x003280E7 (fun t => t.pc) = some 0x00001004#32 := by
  decide
theorem test_beq_taken : pcAfter 0x00208863 5#32 5#32 = some 0x00001010#32 := by decide
theorem test_beq_not_taken : pcAfter 0x00208863 5#32 6#32 = some 0x00001004#32 := by decide
theorem test_bne_not_taken : pcAfter 0x00209863 5#32 5#32 = some 0x00001004#32 := by decide
theorem test_bne_taken : pcAfter 0x00209863 5#32 6#32 = some 0x00001010#32 := by decide
theorem test_blt_taken : pcAfter 0x0020C863 0xFFFFFFFF#32 0#32 = some 0x00001010#32 := by decide
theorem test_blt_not_taken : pcAfter 0x0020C863 0#32 0xFFFFFFFF#32 = some 0x00001004#32 := by decide
theorem test_bge_taken : pcAfter 0x0020D863 5#32 5#32 = some 0x00001010#32 := by decide
theorem test_bge_not_taken : pcAfter 0x0020D863 0x80000000#32 0#32 = some 0x00001004#32 := by decide
theorem test_bltu_taken : pcAfter 0x0020E863 0#32 0xFFFFFFFF#32 = some 0x00001010#32 := by decide
theorem test_bltu_not_taken : pcAfter 0x0020E863 0xFFFFFFFF#32 0#32 = some 0x00001004#32 := by decide
theorem test_bgeu_taken : pcAfter 0x0020F863 0xFFFFFFFF#32 1#32 = some 0x00001010#32 := by decide
theorem test_bgeu_not_taken : pcAfter 0x0020F863 1#32 0xFFFFFFFF#32 = some 0x00001004#32 := by decide
theorem test_lb : shows dataState 0x00010183 (fun t => t.readReg 3) = some 0xFFFFFF80#32 := by decide
theorem test_lbu : shows dataState 0x00214183 (fun t => t.readReg 3) = some 0x000000FF#32 := by decide
theorem test_lh : shows dataState 0x00011183 (fun t => t.readReg 3) = some 0x00007F80#32 := by decide
theorem test_lh_sign_extends :
    shows (dataState.write16 0x00002002#32 0x8001#16) 0x00211183 (fun t => t.readReg 3) = some 0xFFFF8001#32 := by decide
theorem test_lhu : shows dataState 0x00215183 (fun t => t.readReg 3) = some 0x000000FF#32 := by decide
theorem test_lw : shows dataState 0x00412183 (fun t => t.readReg 3) = some 0x12345678#32 := by decide
theorem test_lw_into_its_own_base :
    shows dataState 0x00412103 (fun t => t.readReg 2) = some 0x12345678#32 := by decide
theorem test_sb : shows dataState 0x003101A3 (fun t => t.read32 0x00002000#32) = some 0x78FF7F80#32 := by decide
theorem test_sh : shows dataState 0x00311123 (fun t => t.read32 0x00002000#32) = some 0x56787F80#32 := by decide
theorem test_sw : shows dataState 0x00312023 (fun t => t.read32 0x00002000#32) = some 0x12345678#32 := by decide
theorem test_sw_low_byte_first :
    shows dataState 0x00312023 (fun t => 0#24 ++ t.byteAt 0x00002003#32) = some 0x00000012#32 := by
  decide

/-! ## Faults: section 4.16 and section 4.12 -/

theorem test_fault_lh_odd : faultOf faultState 0x00111183 = some (.misalignedLoad 0x00002001#32) := by decide
theorem test_fault_lw_halfword_aligned :
    faultOf faultState 0x00212183 = some (.misalignedLoad 0x00002002#32) := by decide
theorem test_fault_sw_misaligned : faultOf faultState 0xFE312FA3 = some (.misalignedStore 0x00001FFF#32) := by decide
theorem test_fault_absent_load : faultOf faultState 0x00020183 = some (.accessFault .load 0x00008000#32) := by decide
theorem test_fault_load_to_x0 : faultOf faultState 0x00022003 = some (.accessFault .load 0x00008000#32) := by decide
theorem test_fault_alignment_first : faultOf faultState 0x00032183 = some (.misalignedLoad 0x00008001#32) := by decide
theorem test_fault_store_into_text :
    faultOf faultState 0x003281A3 = some (.accessFault .store 0x00001003#32) := by decide
theorem test_load_from_text : shows faultState 0x0002A183 (fun t => t.readReg 3) = some 0x0002A183#32 := by decide
theorem test_fault_jal_misaligned :
    faultOf State.reset 0x002000EF = some (.misalignedFetch 0x00001002#32) := by decide
theorem test_fault_beq_misaligned :
    faultOf (start 1#32 1#32) 0x00208363 = some (.misalignedFetch 0x00001006#32) := by decide
theorem test_untaken_beq_never_faults : pcAfter 0x00208363 1#32 2#32 = some 0x00001004#32 := by decide
theorem test_fault_illegal : faultOf State.reset 0x02009193 = some (.illegalInstruction 0x02009193#32) := by decide

/-- Log 18: a byte outside TEXT that can be fetched is never stored to. -/
theorem test_fault_store_into_fetchable :
    faultOf { (start 0 0x00002000#32) with cfg := { std with fetchable := [⟨0x2000, 4⟩] } } 0x00310023 =
      some (.accessFault .store 0x00002000#32) := by decide

/-- Log 6: with nothing placed the first step faults. -/
theorem test_fault_at_reset : step State.reset = .fault (.accessFault .fetch 0x00001000#32) := by rfl

/-! ## Configuration: logs 7, 8, 9, 10 -/

theorem test_ordinary_x0 :
    shows { State.reset with cfg := { Config.initial with x0Zero := false } } 0xABCDE037 (fun t => t.readReg 0)
      = some 0xABCDE000#32 := by decide
theorem test_big_endian_sw :
    shows { dataState with cfg := { Config.initial with byteOrder := .big } } 0x00312023
      (fun t => 0#24 ++ t.byteAt 0x00002000#32) = some 0x00000012#32 := by decide
theorem test_split_lw_wraps :
    shows { (start 0 0xFFFFFFFE#32).write32 0xFFFFFFFE#32 0xDEADBEEF#32 with
      cfg := { Config.initial with misalignedData := .split } } 0x00012183 (fun t => t.readReg 3)
      = some 0xDEADBEEF#32 := by decide
theorem test_free_div_by_zero :
    shows { start 7#32 0#32 with cfg := { Config.initial with divCorners := .free } } 0x0220C1B3 (fun t => t.readReg 3)
      = some (Config.freeDivByZero 7#32) := by rfl

/-! ## The launch: section 5 -/

/-- The launch of program P1. -/
def launchP1 : Launch :=
  { cfg := { std with text := [⟨0x1000, 20⟩], haltPc := 0x00001014#32 }
    program := [⟨0x00001000#32, [0x00A00093#32, 0x00000113#32, 0x00110133#32, 0xFFF08093#32, 0xFE009CE3#32]⟩]
    data := []
    regs := Vector.replicate 32 0xAAAAAAAA#32 }

/-- The data memory of program P5, the program itself left out. -/
def launchP5 : Launch :=
  { cfg := std, program := [], data := [(0x3000, 0x05#8), (0x3004, 0xFD#8), (0x3005, 0xFF#8), (0x3006, 0xFF#8)]
    regs := Vector.replicate 32 0#32 }

theorem test_launch_wellFormed : launchP1.wellFormed = true ∧ launchP5.wellFormed = true := by decide
theorem test_launch_refused :
    ({ launchP1 with cfg := std } : Launch).wellFormed = false ∧
    ({ launchP5 with data := [(0x3000, 0#8)] } : Launch).wellFormed = false ∧
    ({ launchP5 with cfg := { std with text := [⟨0x1002, 4⟩] }, program := [⟨0x1002#32, [0#32]⟩] } : Launch).wellFormed
      = false ∧
    ({ launchP5 with
        cfg := { std with text := [⟨0x1000, 8⟩, ⟨0x1004, 4⟩] }
        program := [⟨0x1000#32, [0#32, 0#32]⟩, ⟨0x1004#32, [0#32]⟩] } : Launch).wellFormed = false := by decide
theorem test_launch_words :
    wordAt (State.resetOf launchP1) 0x00001000#32 = 0x00A00093#32 ∧
    wordAt (State.resetOf launchP1) 0x00001010#32 = 0xFE009CE3#32 ∧
    (State.resetOf launchP1).byteAt 0x00001013#32 = 0xFE#8 := by decide
theorem test_launch_registers :
    (State.resetOf launchP1).readReg 0 = 0#32 ∧ (State.resetOf launchP1).readReg 31 = 0xAAAAAAAA#32 := by decide
theorem test_launch_data : wordAt (State.resetOf launchP5) 0x00003000#32 = 0x00000005#32 := by decide
theorem test_launch_first_step :
    (match step (State.resetOf launchP1) with | .next t => some (t.readReg 1, t.pc) | _ => none)
      = some (10#32, 0x00001004#32) := by decide

/-! ## Memory and runs -/

theorem test_memory_canonical :
    Memory.wf (Memory.write (Memory.write (Memory.write [] 9 1#8) 3 2#8) 9 0#8) = true ∧
    Memory.write (Memory.write (Memory.write [] 9 1#8) 3 2#8) 9 0#8 = [(3, 2#8)] := by decide
theorem test_memory_wf_refuses :
    Memory.wf [(3, 1#8), (3, 2#8)] = false ∧ Memory.wf [(4, 1#8), (3, 2#8)] = false ∧ Memory.wf [(3, 0#8)] = false ∧
    Memory.wf [(4294967296, 1#8)] = false := by decide
theorem test_final_before_fetch :
    runToHalt 0 (State.reset.setPc 0xFFFFFFFC#32) = .final (State.reset.setPc 0xFFFFFFFC#32) := by
  decide
theorem test_endless_loop_is_not_done :
    (match runToHalt 2 (State.reset.withFetchWord 32 0x0000006F) with | .outOfFuel _ => true | _ => false) = true := by
  decide

/-! ## Witnesses: a concrete case of the hypotheses of every statement that has some -/

/-- Reset with `X0_ZERO` false. -/
def ordinaryZero : State := { State.reset with cfg := { Config.initial with x0Zero := false } }

/-- Reset with `MISALIGNED_DATA = split`. -/
def splitting : State := { State.reset with cfg := { Config.initial with misalignedData := .split } }

theorem witness_DecodeOfEncodeIsTheInstruction :
    (Instr.beq 31 0 0x1FFE#13).wellFormed = true ∧ (Instr.jal 31 0x1FFFFE#21).wellFormed = true ∧
    (Instr.addi 0 31 0xFFF#12).wellFormed = true ∧ std.encodingFree = true ∧
    ({ std with jalOpcode := 0b1111111#7, bltFunct3 := 0b010#3, bgeuFunct3 := 0b011#3 } : Config).encodingFree = true := by
  decide

theorem witness_EncodeOfDecodeIsTheWord :
    decode std 0xFE209EE3#32 = .ok (.bne 1 2 0x1FFC#13) ∧ decode std 0x00000037#32 = .ok (.lui 0 0#20) := by decide

theorem witness_DecodeFollowsTheMatchAndMaskTable :
    EncodingOfR8 std ∧ std.encodingFree = true ∧
    tableRow std (.slli 0 0 0#5) ≠ tableRow std (.srli 0 0 0#5) ∧
    0x01F09193#32 &&& (tableRow std (.slli 0 0 0#5)).1 = (tableRow std (.slli 0 0 0#5)).2 ∧
    decode std 0x01F09193#32 = .ok (.slli 3 1 31#5) ∧ decode std 0x02009193#32 = .error .shiftImmediate ∧
    ∀ i : Instr, 0x02009193#32 &&& (tableRow std i).1 ≠ (tableRow std i).2 := by
  refine ⟨⟨rfl, rfl, rfl⟩, by decide, by decide, by decide, by decide, by decide, fun i => ?_⟩
  cases i <;> (simp only [tableRow]; decide)

theorem witness_WrongShiftImmediatesAreIllegal :
    (0x02009193#32 : Word).extractLsb' 0 7 = 0b0010011#7 ∧ (0x02009193#32 : Word).extractLsb' 12 3 = 0b001#3 ∧
    (0x02009193#32 : Word).extractLsb' 25 1 = 1#1 ∧ (0x40009193#32 : Word).extractLsb' 26 6 ≠ 0b000000#6 ∧
    (0x4200D193#32 : Word).extractLsb' 12 3 = 0b101#3 ∧ (0x4200D193#32 : Word).extractLsb' 25 1 = 1#1 ∧
    (0x8000D193#32 : Word).extractLsb' 26 6 ≠ 0b000000#6 ∧ (0x8000D193#32 : Word).extractLsb' 26 6 ≠ 0b010000#6 ∧
    (State.reset.withFetchWord 32 0x02009193).pc.toNat % 4 = 0 ∧
    admits (State.reset.withFetchWord 32 0x02009193).cfg (State.reset.withFetchWord 32 0x02009193).pc 4 .fetch = true ∧
    (State.reset.withFetchWord 32 0x02009193).fetchWord = 0x02009193#32 := by
  decide

theorem witness_OnlyNineOpcodesAreDefined :
    std.jalOpcode = 0b1101111#7 ∧ decode std 0x00000003#32 = .ok (.lb 0 0 0#12) ∧
    decode std 0xFFFFF06F#32 = .ok (.jal 0 0x1FFFFE#21) := by decide

theorem witness_StepRunsTheDecodedInstruction :
    (State.reset.withFetchWord 32 0x002081B3).pc.toNat % 4 = 0 ∧
    admits (State.reset.withFetchWord 32 0x002081B3).cfg (State.reset.withFetchWord 32 0x002081B3).pc 4 .fetch = true ∧
    decode (State.reset.withFetchWord 32 0x002081B3).cfg
      (wordAt (State.reset.withFetchWord 32 0x002081B3) (State.reset.withFetchWord 32 0x002081B3).pc) = .ok (.add 3 1 2) := by
  decide

theorem witness_UndefinedWordsRaiseIllegalInstruction :
    (State.reset.withFetchWord 32 0x00000000).pc.toNat % 4 = 0 ∧
    admits (State.reset.withFetchWord 32 0x00000000).cfg (State.reset.withFetchWord 32 0x00000000).pc 4 .fetch = true ∧
    decode (State.reset.withFetchWord 32 0x00000000).cfg
      (wordAt (State.reset.withFetchWord 32 0x00000000) (State.reset.withFetchWord 32 0x00000000).pc) = .error .opcode := by
  decide

/-- The first clause is met by the reset state, the second by a loaded one. -/
theorem witness_FetchIsCheckedThenReadsFourBytes :
    State.reset.pc.toNat % 4 = 0 ∧ State.reset.cfg.byteOrder = .little ∧
    admits State.reset.cfg State.reset.pc 4 .fetch = false ∧
    (State.reset.withFetchWord 32 0x002081B3).pc.toNat % 4 = 0 ∧
    admits (State.reset.withFetchWord 32 0x002081B3).cfg (State.reset.withFetchWord 32 0x002081B3).pc 4 .fetch = true ∧
    (State.reset.withFetchWord 32 0x002081B3).cfg.byteOrder = .little := by decide

theorem witness_OnlyAMisalignedPcIsRefused :
    step (State.reset.setPc 0x00001001#32) = .refused (.pcNotAligned 0x00001001#32) ∧
    step (State.reset.setPc 0xFFFFFFFF#32) = .refused (.pcNotAligned 0xFFFFFFFF#32) := ⟨rfl, rfl⟩

theorem witness_RegisterZeroIsConstantOrOrdinary :
    State.reset.cfg.x0Zero = true ∧ ordinaryZero.cfg.x0Zero = false := by decide

theorem witness_LuiLoadsTheUpperBits :
    0xABCDE2B7#32 &&& 0x0000007F#32 = 0x00000037#32 := by decide

theorem witness_AuipcAddsToItsOwnPc :
    0xFFFFF297#32 &&& 0x0000007F#32 = 0x00000017#32 := by decide

theorem witness_AddWraps :
    0x002081B3#32 &&& 0xFE00707F#32 = 0x00000033#32 := by decide

theorem witness_AddiAddsTheSignedImmediate :
    0xFFF00093#32 &&& 0x0000707F#32 = 0x00000013#32 := by decide

theorem witness_SubWraps :
    0x402081B3#32 &&& 0xFE00707F#32 = 0x40000033#32 := by decide

theorem witness_MulKeepsTheLowHalf :
    0x022081B3#32 &&& 0xFE00707F#32 = 0x02000033#32 := by decide

theorem witness_MulhIsTheSignedUpperHalf :
    0x022091B3#32 &&& 0xFE00707F#32 = 0x02001033#32 := by decide

theorem witness_MulhsuIsTheMixedUpperHalf :
    0x0220A1B3#32 &&& 0xFE00707F#32 = 0x02002033#32 := by decide

theorem witness_MulhuIsTheUnsignedUpperHalf :
    0x0220B1B3#32 &&& 0xFE00707F#32 = 0x02003033#32 := by decide

theorem witness_DivRoundsTowardZero :
    0x0220C1B3#32 &&& 0xFE00707F#32 = 0x02004033#32 ∧
    (start 7#32 0#32).readReg 2 = 0#32 ∧
    ((start 0x80000000#32 0xFFFFFFFF#32).readReg 1 = 0x80000000#32 ∧
    (start 0x80000000#32 0xFFFFFFFF#32).readReg 2 = 0xFFFFFFFF#32) ∧
    ((start 0x80000001#32 0xFFFFFFFF#32).readReg 2 ≠ 0#32 ∧
    ¬ ((start 0x80000001#32 0xFFFFFFFF#32).readReg 1 = 0x80000000#32 ∧
    (start 0x80000001#32 0xFFFFFFFF#32).readReg 2 = 0xFFFFFFFF#32)) := by
  decide

theorem witness_RemHasTheSignOfTheDividend :
    0x0220E1B3#32 &&& 0xFE00707F#32 = 0x02006033#32 ∧
    (start 7#32 0#32).readReg 2 = 0#32 ∧
    ((start 0x80000000#32 0xFFFFFFFF#32).readReg 1 = 0x80000000#32 ∧
    (start 0x80000000#32 0xFFFFFFFF#32).readReg 2 = 0xFFFFFFFF#32) ∧
    ((start 0x80000001#32 0xFFFFFFFF#32).readReg 2 ≠ 0#32 ∧
    ¬ ((start 0x80000001#32 0xFFFFFFFF#32).readReg 1 = 0x80000000#32 ∧
    (start 0x80000001#32 0xFFFFFFFF#32).readReg 2 = 0xFFFFFFFF#32)) := by
  decide

theorem witness_DivuRoundsDown :
    0x0220D1B3#32 &&& 0xFE00707F#32 = 0x02005033#32 ∧
    (start 7#32 0#32).readReg 2 = 0#32 ∧
    (start 0x80000000#32 1#32).readReg 2 ≠ 0#32 := by decide

theorem witness_RemuIsBelowTheDivisor :
    0x0220F1B3#32 &&& 0xFE00707F#32 = 0x02007033#32 ∧
    (start 7#32 0#32).readReg 2 = 0#32 ∧
    (start 0x80000000#32 1#32).readReg 2 ≠ 0#32 := by decide

theorem witness_DivisionCornersHaveTheirDefaults :
    (start 7#32 0#32).cfg.divCorners = .standard ∧ (start 7#32 0#32).readReg 2 = 0#32 ∧
    (start 0x80000000#32 0xFFFFFFFF#32).cfg.divCorners = .standard ∧
    ((start 0x80000000#32 0xFFFFFFFF#32).readReg 1 = 0x80000000#32 ∧
    (start 0x80000000#32 0xFFFFFFFF#32).readReg 2 = 0xFFFFFFFF#32) := by
  decide

theorem witness_QuotientTimesDivisorPlusRemainder :
    (start 7#32 0#32).cfg.divCorners = .standard ∧ (start 7#32 0#32).readReg 2 = 0#32 ∧
    ((start 0x80000001#32 0xFFFFFFFF#32).readReg 2 ≠ 0#32 ∧
    ¬ ((start 0x80000001#32 0xFFFFFFFF#32).readReg 1 = 0x80000000#32 ∧
    (start 0x80000001#32 0xFFFFFFFF#32).readReg 2 = 0xFFFFFFFF#32)) := by
  decide

theorem witness_LogicalRegisterFormsAreBitwise :
    0x0020C1B3#32 &&& 0xFE00707F#32 = 0x00004033#32 ∧ 0x0020E1B3#32 &&& 0xFE00707F#32 = 0x00006033#32 ∧
    0x0020F1B3#32 &&& 0xFE00707F#32 = 0x00007033#32 := by
  decide

theorem witness_LogicalImmediateFormsSignExtend :
    0xFFF0C193#32 &&& 0x0000707F#32 = 0x00004013#32 ∧ 0x5550E193#32 &&& 0x0000707F#32 = 0x00006013#32 ∧
    0x0FF0F193#32 &&& 0x0000707F#32 = 0x00007013#32 := by
  decide

theorem witness_RegisterShiftsUseFiveBits :
    0x002091B3#32 &&& 0xFE00707F#32 = 0x00001033#32 ∧ 0x0020D1B3#32 &&& 0xFE00707F#32 = 0x00005033#32 ∧
    0x4020D1B3#32 &&& 0xFE00707F#32 = 0x40005033#32 := by
  decide

theorem witness_ImmediateShiftsUseShamt :
    0x01F09193#32 &&& 0xFE00707F#32 = 0x00001013#32 ∧ 0x0040D193#32 &&& 0xFE00707F#32 = 0x00005013#32 ∧
    0x4040D193#32 &&& 0xFE00707F#32 = 0x40005013#32 := by
  decide

theorem witness_RegisterComparesGiveOneOrZero :
    0x0020A1B3#32 &&& 0xFE00707F#32 = 0x00002033#32 ∧ 0x0020B1B3#32 &&& 0xFE00707F#32 = 0x00003033#32 := by decide

theorem witness_ImmediateComparesSignExtend :
    0xFFB0A193#32 &&& 0x0000707F#32 = 0x00002013#32 ∧ 0x0010B193#32 &&& 0x0000707F#32 = 0x00003013#32 := by decide

theorem witness_JalLinksAndJumps :
    std.jalOpcode = 0b1101111#7 ∧ 0x001000EF#32 &&& 0x0000007F#32 = 0x0000006F#32 ∧
    (State.reset.pc + (0x0FFFFC#21).signExtend 32).toNat % 4 = 0 ∧
    (State.reset.pc + (0x0FFFFE#21).signExtend 32).toNat % 4 ≠ 0 := by decide

/-- A sum with bit 0 set whose target is aligned, and one whose target is not. -/
theorem witness_JalrLinksAndJumps :
    0xFFC280E7#32 &&& 0x0000707F#32 = 0x00000067#32 ∧
    (0x00003000#32 : Word).toNat = 2 * (((start 0x00003000#32 0#32).readReg 1 + (1#12).signExtend 32).toNat / 2) ∧
    (0x00003000#32 : Word).toNat % 4 = 0 ∧
    (0x00003002#32 : Word).toNat = 2 * (((start 0x00003000#32 0#32).readReg 1 + (3#12).signExtend 32).toNat / 2) ∧
    (0x00003002#32 : Word).toNat % 4 ≠ 0 := by decide

/-- For each branch a state that takes it, one that does not, an aligned and a misaligned target. -/
theorem witness_EqualityBranches :
    0x00208863#32 &&& 0x0000707F#32 = 0x00000063#32 ∧ 0xFE209EE3#32 &&& 0x0000707F#32 = 0x00001063#32 ∧
    (start 5#32 5#32).readReg 1 = (start 5#32 5#32).readReg 2 ∧
    (start 5#32 6#32).readReg 1 ≠ (start 5#32 6#32).readReg 2 ∧
    (State.reset.pc + (0x0FFC#13).signExtend 32).toNat % 4 = 0 ∧
    (State.reset.pc + (0x0FFE#13).signExtend 32).toNat % 4 ≠ 0 := by
  decide

/-- For each branch a state that takes it, one that does not, an aligned and a misaligned target. -/
theorem witness_SignedBranches :
    std.bltFunct3 = 0b100#3 ∧ 0x7E20CFE3#32 &&& 0x0000707F#32 = 0x00004063#32 ∧
    0x8020D063#32 &&& 0x0000707F#32 = 0x00005063#32 ∧
    ((start 0xFFFFFFFF#32 0#32).readReg 1).toInt < ((start 0xFFFFFFFF#32 0#32).readReg 2).toInt ∧
    ((start 5#32 5#32).readReg 1).toInt ≥ ((start 5#32 5#32).readReg 2).toInt ∧
    (State.reset.pc + (0x0FFC#13).signExtend 32).toNat % 4 = 0 ∧
    (State.reset.pc + (0x0FFE#13).signExtend 32).toNat % 4 ≠ 0 := by
  decide

/-- For each branch a state that takes it, one that does not, an aligned and a misaligned target. -/
theorem witness_UnsignedBranches :
    std.bltFunct3 = 0b100#3 ∧ std.bgeuFunct3 = 0b111#3 ∧
    0x0020E0E3#32 &&& 0x0000707F#32 = 0x00006063#32 ∧ 0x0020F463#32 &&& 0x0000707F#32 = 0x00007063#32 ∧
    ((start 5#32 6#32).readReg 1).toNat < ((start 5#32 6#32).readReg 2).toNat ∧
    ((start 5#32 5#32).readReg 1).toNat ≥ ((start 5#32 5#32).readReg 2).toNat ∧
    (State.reset.pc + (0x0FFC#13).signExtend 32).toNat % 4 = 0 ∧
    (State.reset.pc + (0x0FFE#13).signExtend 32).toNat % 4 ≠ 0 := by
  decide

/-- The topmost address and an absent one; a byte access is always aligned, so the second clause has no case. -/
theorem witness_ByteLoads :
    0xFFF10183#32 &&& 0x0000707F#32 = 0x00000003#32 ∧ 0x00014183#32 &&& 0x0000707F#32 = 0x00004003#32 ∧
    Permitted State.reset 0xFFFFFFFF#32 1 ∧ admits State.reset.cfg 0xFFFFFFFF#32 1 .load = true ∧
    Permitted faultState 0x00008000#32 1 ∧ admits faultState.cfg 0x00008000#32 1 .load = false := by
  unfold Permitted; decide

/-- The topmost address, a misaligned one with and without splitting, an absent one. -/
theorem witness_HalfwordLoads :
    0x00211183#32 &&& 0x0000707F#32 = 0x00001003#32 ∧ 0x80015183#32 &&& 0x0000707F#32 = 0x00005003#32 ∧
    Permitted State.reset 0xFFFFFFFE#32 2 ∧ admits State.reset.cfg 0xFFFFFFFE#32 2 .load = true ∧
    ¬ Permitted State.reset 0xFFFFFFFF#32 2 ∧ Permitted splitting 0xFFFFFFFF#32 2 ∧
    Permitted faultState 0x00008FFE#32 2 ∧ admits faultState.cfg 0x00008FFE#32 2 .load = false := by
  unfold Permitted; decide

/-- The topmost address, a misaligned one with and without splitting, an absent one. -/
theorem witness_WordLoads :
    0x7FF12183#32 &&& 0x0000707F#32 = 0x00002003#32 ∧
    Permitted State.reset 0xFFFFFFFC#32 4 ∧ admits State.reset.cfg 0xFFFFFFFC#32 4 .load = true ∧
    ¬ Permitted State.reset 0xFFFFFFFF#32 4 ∧ Permitted splitting 0xFFFFFFFF#32 4 ∧
    Permitted faultState 0x00008FFC#32 4 ∧ admits faultState.cfg 0x00008FFC#32 4 .load = false := by
  unfold Permitted; decide

/-- Two states that differ in a byte the load does not read. -/
theorem witness_LoadsReadOnlyTheirOwnBytes :
    loadAccess (.lw 3 2 4#12) dataState = some (4, 0x00002004#32) ∧
    isNext (exec (.lw 3 2 4#12) dataState) = true ∧
    (dataState.setByte 0x00002000#32 9#8).pc = dataState.pc ∧
    (dataState.setByte 0x00002000#32 9#8).cfg = dataState.cfg ∧
    (∀ r, (dataState.setByte 0x00002000#32 9#8).readReg r = dataState.readReg r) ∧
    ∀ k, k < 4 → (dataState.setByte 0x00002000#32 9#8).byteAt (0x00002004#32 + BitVec.ofNat 32 k) =
      dataState.byteAt (0x00002004#32 + BitVec.ofNat 32 k) := by
  refine ⟨by decide, by decide, State.setByte_pc .., State.setByte_cfg .., State.setByte_readReg _ _ _, ?_⟩
  have h : ∀ k, k < 4 → (0x00002004#32 : Word) + BitVec.ofNat 32 k ≠ 0x00002000#32 := by decide
  exact fun k hk => State.byteAt_setByte_ne _ _ (h k hk)

/-- The topmost address and an absent one; a byte access is always aligned, so the second clause has no case. -/
theorem witness_ByteStores :
    0xFE310FA3#32 &&& 0x0000707F#32 = 0x00000023#32 ∧
    Permitted State.reset 0xFFFFFFFF#32 1 ∧ admits State.reset.cfg 0xFFFFFFFF#32 1 .store = true ∧
    Permitted faultState 0x00008000#32 1 ∧ admits faultState.cfg 0x00008000#32 1 .store = false := by
  unfold Permitted; decide

/-- The topmost address, a misaligned one with and without splitting, an absent one. -/
theorem witness_HalfwordStores :
    0x00311123#32 &&& 0x0000707F#32 = 0x00001023#32 ∧
    Permitted State.reset 0xFFFFFFFE#32 2 ∧ admits State.reset.cfg 0xFFFFFFFE#32 2 .store = true ∧
    ¬ Permitted State.reset 0xFFFFFFFF#32 2 ∧ Permitted splitting 0xFFFFFFFF#32 2 ∧
    Permitted faultState 0x00008FFE#32 2 ∧ admits faultState.cfg 0x00008FFE#32 2 .store = false := by
  unfold Permitted; decide

/-- The topmost address, a misaligned one with and without splitting, an absent one. -/
theorem witness_WordStores :
    0x7BFF2223#32 &&& 0x0000707F#32 = 0x00002023#32 ∧
    Permitted State.reset 0xFFFFFFFC#32 4 ∧ admits State.reset.cfg 0xFFFFFFFC#32 4 .store = true ∧
    ¬ Permitted State.reset 0xFFFFFFFF#32 4 ∧ Permitted splitting 0xFFFFFFFF#32 4 ∧
    Permitted faultState 0x00008FFC#32 4 ∧ admits faultState.cfg 0x00008FFC#32 4 .store = false := by
  unfold Permitted; decide

theorem witness_MixedWidthAccessesSeeTheSameBytes :
    State.reset.cfg.byteOrder = .little := by decide

theorem witness_AlignedAccessesNeverWrap :
    isAligned 0xFFFFFFFC#32 .word = true ∧ isAligned 0xFFFFFFFE#32 .half = true ∧
    isAligned 0xFFFFFFFF#32 .byte = true := by
  decide

/-- A word access whose last byte alone lies in TEXT, and is thereby admitted for fetches. -/
theorem witness_AccessesAreAdmittedByteByByte :
    inRegions (State.reset.withFetchWord 32 0x00000013).cfg.text (0x00000FFD#32 + BitVec.ofNat 32 3).toNat = true ∧
    admits (State.reset.withFetchWord 32 0x00000013).cfg (0x00000FFD#32 + BitVec.ofNat 32 3) 1 .fetch = true := by
  decide

theorem witness_OnlyStoresChangeMemory :
    isNext (exec (.sw 2 3 0#12) dataState) = true ∧
    storeAccess (.sw 2 3 0#12) dataState = some (4, 0x00002000#32) ∧
    ∀ k, k < 4 → (0x00002004#32 : Word) ≠ 0x00002000#32 + BitVec.ofNat 32 k := by decide

/-- A branch that is not taken. -/
theorem witness_PcAdvancesByFour :
    isNext (exec (.beq 1 2 16#13) (start 5#32 6#32)) = true ∧
    ¬ takesBranch (.beq 1 2 16#13) (start 5#32 6#32) ∧
    ¬ isJump (.beq 1 2 16#13) := by
  refine ⟨by decide, ?_, ?_⟩
  · show ¬ (start 5#32 6#32).readReg 1 = (start 5#32 6#32).readReg 2
    decide
  · simp [isJump]

theorem witness_MisalignedFetchExactly :
    faultOf State.reset 0x002000EF = some (.misalignedFetch 0x00001002#32) ∧
    isJump (.jal 1 2#21) ∧ transferTarget (.jal 1 2#21) State.reset = some 0x00001002#32 := by
  refine ⟨by decide, .inl ⟨1, 2#21, rfl⟩, by decide⟩

theorem witness_MisalignedLoadExactly :
    loadAccess (.lh 3 2 1#12) dataState = some (2, 0x00002001#32) ∧
    loadAccess (.lw 3 2 2#12) dataState = some (4, 0x00002002#32) ∧
    dataState.cfg.misalignedData = .fault := by decide

theorem witness_MisalignedStoreExactly :
    storeAccess (.sh 2 3 1#12) dataState = some (2, 0x00002001#32) ∧
    storeAccess (.sw 2 3 2#12) dataState = some (4, 0x00002002#32) ∧
    dataState.cfg.misalignedData = .fault := by decide

theorem witness_AccessFaultExactly :
    Permitted faultState 0x00008000#32 4 ∧ admits faultState.cfg 0x00008000#32 4 .load = false ∧
    loadAccess (.lw 0 4 0#12) faultState = some (4, 0x00008000#32) ∧
    storeAccess (.sb 4 3 0#12) faultState = some (1, 0x00008000#32) ∧
    admits faultState.cfg 0x00008000#32 1 .store = false ∧
    State.reset.pc.toNat % 4 = 0 ∧ admits State.reset.cfg State.reset.pc 4 .fetch = false := by
  unfold Permitted; decide

/-- A state with an ADD loaded meets the invariant, and its step answers a next state. -/
theorem witness_StepKeepsTheInvariant :
    Invariant (State.reset.withFetchWord 32 0x002081B3) ∧
    isNext (step (State.reset.withFetchWord 32 0x002081B3)) = true :=
  ⟨⟨by decide, fun _ => by decide, by decide, by decide⟩, by decide⟩

theorem witness_ResetMeetsTheInvariant :
    Launch.initial.wellFormed = true ∧
    ({ Launch.initial with cfg := { std with resetPc := 0xFFFFFFFC#32 } } : Launch).wellFormed = true := by
  decide

/-- A program of two parts, one at the top of the address space; the last word of each, a byte of TEXT, a byte off it. -/
theorem witness_LaunchPlacesTheProgram :
    ({ Launch.initial with
        cfg := { std with text := [⟨0xFFFFFFFC, 4⟩, ⟨0, 8⟩] }
        program := [⟨0xFFFFFFFC#32, [0x0000006F#32]⟩, ⟨0x00000000#32, [0x00000013#32, 0x002081B3#32]⟩] } : Launch).wellFormed
      = true ∧
    launchP1.wellFormed = true ∧
    (⟨0x00001000#32, [0x00A00093#32, 0x00000113#32, 0x00110133#32, 0xFFF08093#32, 0xFE009CE3#32]⟩ : ProgramPart)
      ∈ launchP1.program ∧
    ([0x00A00093#32, 0x00000113#32, 0x00110133#32, 0xFFF08093#32, 0xFE009CE3#32] : List Word)[4]?
      = some 0xFE009CE3#32 ∧
    inRegions launchP1.cfg.text (0x00001013#32 : Word).toNat = true ∧
    inRegions launchP1.cfg.text (0x00001014#32 : Word).toNat = false := by
  decide

/-- Two steps of the endless loop `jal x0, 0`, whose four bytes are TEXT. -/
theorem witness_ProgramBytesNeverChange :
    isNext (Host.Core.run Sys2Proof.core 2 (State.reset.withFetchWord 32 0x0000006F)) = true ∧
    inRegions (State.reset.withFetchWord 32 0x0000006F).cfg.text (0x00001003#32 : Word).toNat = true ∧
    admits (State.reset.withFetchWord 32 0x0000006F).cfg 0x00001000#32 4 .fetch = true := by
  refine ⟨by decide, by decide, by decide⟩

/-- A run that is final at once, and one that ends in a fault. -/
theorem witness_RunsEndAtHaltPcOrAtAFault :
    (State.reset.setPc 0xFFFFFFFC#32).pc = (State.reset.setPc 0xFFFFFFFC#32).cfg.haltPc ∧
    runToHalt 0 (State.reset.setPc 0xFFFFFFFC#32) = .final (State.reset.setPc 0xFFFFFFFC#32) ∧
    runToHalt 1 State.reset = .faulted (.accessFault .fetch 0x00001000#32) State.reset := by
  refine ⟨rfl, rfl, rfl⟩

end Sys2Proof.Tests
end

section
/-! PROOFS. The layer that the statements about the state rest on: the front of a step, the branch conditions, and the
five shared forms that the 45 instructions are made of. -/

namespace Sys2Proof.Machine

open Sys2Proof.Claims

/-! ## The front of a step, one equation per case (20_memory.md rule R52) -/

/-- The fetched word is the word at the pc, in the byte order of the configuration. -/
theorem State.fetchWord_eq_wordAt (s : State) : s.fetchWord = wordAt s s.pc := by
  unfold State.fetchWord State.read32 wordOfBytes wordAt
  cases s.cfg.byteOrder <;> rfl

theorem step_of_misaligned_pc {s : State} (hpc : s.pc.toNat % 4 ≠ 0) : step s = .refused (.pcNotAligned s.pc) := by
  simp [step, fetchAndRun, isMultipleOf4_iff, hpc]

theorem step_of_not_admitted {s : State} (hpc : s.pc.toNat % 4 = 0) (ha : admits s.cfg s.pc 4 .fetch = false) :
    step s = .fault (.accessFault .fetch s.pc) := by
  simp [step, fetchAndRun, raise, isMultipleOf4_iff, hpc, ha]

theorem step_of_decode_error {s : State} {e : Illegal} (hpc : s.pc.toNat % 4 = 0)
    (ha : admits s.cfg s.pc 4 .fetch = true) (hd : decode s.cfg (wordAt s s.pc) = .error e) :
    step s = .fault (.illegalInstruction (wordAt s s.pc)) := by
  simp [step, fetchAndRun, isMultipleOf4_iff, State.fetchWord_eq_wordAt, hpc, ha, hd]

theorem step_of_decode_ok {s : State} {i : Instr} (hpc : s.pc.toNat % 4 = 0)
    (ha : admits s.cfg s.pc 4 .fetch = true) (hd : decode s.cfg (wordAt s s.pc) = .ok i) : step s = exec i s := by
  simp [step, fetchAndRun, isMultipleOf4_iff, State.fetchWord_eq_wordAt, hpc, ha, hd]

/-! ## The branch conditions as propositions (46_branch.md) -/

@[simp] theorem condEq_iff (a b : Word) : condEq a b = true ↔ a = b := by simp [condEq]
@[simp] theorem condNe_iff (a b : Word) : condNe a b = true ↔ a ≠ b := by simp [condNe, condEq]
@[simp] theorem condLtS_iff (a b : Word) : condLtS a b = true ↔ a.toInt < b.toInt := by simp [condLtS]
@[simp] theorem condGeS_iff (a b : Word) : condGeS a b = true ↔ a.toInt ≥ b.toInt := by simp [condGeS, condLtS]
@[simp] theorem condLtU_iff (a b : Word) : condLtU a b = true ↔ a.toNat < b.toNat := by simp [condLtU]
@[simp] theorem condGeU_iff (a b : Word) : condGeU a b = true ↔ a.toNat ≥ b.toNat := by simp [condGeU, condLtU]

/-! ## What a memory write changes -/

/-- `u` is `s` but for the `n` bytes from `addr` upwards, and memory is still canonical if it was. -/
structure ChangesOnlyBytes (s : State) (addr : Word) (n : Nat) (u : State) : Prop where
  regs_eq : u.regs = s.regs
  pc_eq : u.pc = s.pc
  cfg_eq : u.cfg = s.cfg
  byteAt_eq : ∀ a, (∀ k, k < n → a ≠ addr + BitVec.ofNat 32 k) → u.byteAt a = s.byteAt a
  mem_wf : Memory.wf s.mem = true → Memory.wf u.mem = true

theorem State.write8_changesOnlyBytes (s : State) (addr : Word) (v : BitVec 8) :
    ChangesOnlyBytes s addr (widthBytes .byte) (s.write8 addr v) where
  regs_eq := State.write8_regs s addr v
  pc_eq := State.write8_pc s addr v
  cfg_eq := State.write8_cfg s addr v
  byteAt_eq a h := State.byteAt_setByte_ne s v (by simpa using h 0 (by decide))
  mem_wf := State.write8_wf s addr v

theorem State.write16_changesOnlyBytes (s : State) (addr : Word) (v : BitVec 16) :
    ChangesOnlyBytes s addr (widthBytes .half) (s.write16 addr v) where
  regs_eq := State.write16_regs s addr v
  pc_eq := State.write16_pc s addr v
  cfg_eq := State.write16_cfg s addr v
  byteAt_eq a h := State.byteAt_write16_ne s v (by simpa using h 0 (by decide)) (h 1 (by decide))
  mem_wf := State.write16_wf s addr v

theorem State.write32_changesOnlyBytes (s : State) (addr : Word) (v : BitVec 32) :
    ChangesOnlyBytes s addr (widthBytes .word) (s.write32 addr v) where
  regs_eq := State.write32_regs s addr v
  pc_eq := State.write32_pc s addr v
  cfg_eq := State.write32_cfg s addr v
  byteAt_eq a h := State.byteAt_write32_ne s v (by simpa using h 0 (by decide)) (h 1 (by decide)) (h 2 (by decide))
    (h 3 (by decide))
  mem_wf := State.write32_wf s addr v

/-! ## The five forms of a meaning -/

/-- Which of the shared operations an instruction's meaning is, with the transfer target and the memory access that go
with it: what the 45 arms of `exec` have in common, so that no later proof goes through them again. -/
inductive ExecForm (i : Instr) (s : State) : Prop where
  | compute (rd : RegIdx) (v : Word) (exec_eq : exec i s = writeResult rd v s)
      (target_eq : transferTarget i s = none) (load_eq : loadAccess i s = none) (store_eq : storeAccess i s = none)
  | branch (taken : Bool) (off : BitVec 13) (exec_eq : exec i s = branchIf taken off s)
      (taken_iff : taken = true ↔ takesBranch i s) (target_eq : transferTarget i s = some (s.pc + immB off))
      (load_eq : loadAccess i s = none) (store_eq : storeAccess i s = none)
  | jump (rd : RegIdx) (target : Word) (exec_eq : exec i s = jumpTo target (s.writeReg rd (s.pc + 4#32)))
      (is_jump : isJump i) (target_eq : transferTarget i s = some target)
      (load_eq : loadAccess i s = none) (store_eq : storeAccess i s = none)
  | load (w : AccessWidth) (addr : Word) (rd : RegIdx) (v : Word) (exec_eq : exec i s = loadWith w addr rd v s)
      (target_eq : transferTarget i s = none) (load_eq : loadAccess i s = some (widthBytes w, addr))
      (store_eq : storeAccess i s = none)
  | store (w : AccessWidth) (addr : Word) (u : State) (exec_eq : exec i s = storeWith w addr u s)
      (written : ChangesOnlyBytes s addr (widthBytes w) u) (target_eq : transferTarget i s = none)
      (load_eq : loadAccess i s = none) (store_eq : storeAccess i s = some (widthBytes w, addr))

/-- Every instruction is of one of the five forms. -/
theorem exec_form (i : Instr) (s : State) : ExecForm i s := by
  cases i
  case lui | auipc | add | addi | sub | mul | mulh | mulhsu | mulhu | div | divu | rem | remu | xor | xori | or | ori
      | and | andi | sll | slli | srl | srli | sra | srai | slt | slti | sltiu | sltu => exact .compute _ _ rfl rfl rfl rfl
  case jal rd off => exact .jump _ _ rfl (.inl ⟨rd, off, rfl⟩) rfl rfl rfl
  case jalr rd rs1 imm => exact .jump _ _ rfl (.inr ⟨rd, rs1, imm, rfl⟩) rfl rfl rfl
  case beq => exact .branch _ _ rfl (condEq_iff _ _) rfl rfl rfl
  case bne => exact .branch _ _ rfl (condNe_iff _ _) rfl rfl rfl
  case blt => exact .branch _ _ rfl (condLtS_iff _ _) rfl rfl rfl
  case bge => exact .branch _ _ rfl (condGeS_iff _ _) rfl rfl rfl
  case bltu => exact .branch _ _ rfl (condLtU_iff _ _) rfl rfl rfl
  case bgeu => exact .branch _ _ rfl (condGeU_iff _ _) rfl rfl rfl
  case lb | lbu | lh | lhu | lw => exact .load _ _ _ _ rfl rfl rfl rfl
  case sb => exact .store _ _ _ rfl (State.write8_changesOnlyBytes _ _ _) rfl rfl rfl
  case sh => exact .store _ _ _ rfl (State.write16_changesOnlyBytes _ _ _) rfl rfl rfl
  case sw => exact .store _ _ _ rfl (State.write32_changesOnlyBytes _ _ _) rfl rfl rfl

end Sys2Proof.Machine
end

section
/-! PROOFS. The invariant, one rule per state operation, and every step keeps it (10_state.md rules R22, R26). -/

namespace Sys2Proof

open Sys2Proof.Machine

/-- The invariant does not speak of the registers other than the constant one. -/
theorem Invariant.writeReg {s : State} (h : Invariant s) (rd : RegIdx) (v : Word) : Invariant (s.writeReg rd v) where
  pc_aligned := by simpa using h.pc_aligned
  zero_register hx := by
    rw [State.writeReg_cfg] at hx
    exact State.writeReg_zero_entry s rd v hx (h.zero_register hx)
  memory_canonical := by simpa using h.memory_canonical
  config_wellFormed := by simpa using h.config_wellFormed

/-- A transfer to an aligned target keeps the invariant (20_memory.md rule R47). -/
theorem Invariant.setPc {s : State} (h : Invariant s) {target : Word} (ht : isMultipleOf4 target = true) :
    Invariant (s.setPc target) :=
  ⟨ht, h.zero_register, h.memory_canonical, h.config_wellFormed⟩

/-- `pc + 4` modulo 2^32 is a multiple of 4 again, at the top of the address space too. -/
theorem isMultipleOf4_add_four {a : Word} (h : isMultipleOf4 a = true) : isMultipleOf4 (a + 4#32) = true := by
  rw [isMultipleOf4_iff] at h ⊢
  rw [BitVec.toNat_add, BitVec.toNat_ofNat]
  omega

theorem Invariant.advance {s : State} (h : Invariant s) : Invariant s.advance :=
  h.setPc (isMultipleOf4_add_four h.pc_aligned)

/-- A memory write keeps the invariant. -/
theorem Invariant.of_changesOnlyBytes {s u : State} {addr : Word} {n : Nat} (h : Invariant s)
    (hu : ChangesOnlyBytes s addr n u) : Invariant u where
  pc_aligned := hu.pc_eq ▸ h.pc_aligned
  zero_register hx := by
    simp only [hu.regs_eq]
    exact h.zero_register (hu.cfg_eq ▸ hx)
  memory_canonical := hu.mem_wf h.memory_canonical
  config_wellFormed := hu.cfg_eq ▸ h.config_wellFormed

/-- An instruction that completes keeps the invariant. -/
theorem Invariant.exec {i : Instr} {s t : State} (h : Invariant s) (ht : exec i s = .next t) : Invariant t := by
  cases exec_form i s with
  | compute rd v e =>
    obtain rfl := writeResult_next (e ▸ ht)
    exact (h.writeReg rd v).advance
  | branch taken off e =>
    obtain ⟨-, hm, rfl⟩ | ⟨-, rfl⟩ := branchIf_next (e ▸ ht)
    · exact h.setPc hm
    · exact h.advance
  | jump rd target e =>
    obtain ⟨hm, rfl⟩ := jumpTo_next (e ▸ ht)
    exact (h.writeReg rd _).setPc hm
  | load w addr rd v e =>
    obtain ⟨-, rfl⟩ := loadWith_next (e ▸ ht)
    exact (h.writeReg rd v).advance
  | store w addr u e hu =>
    obtain ⟨-, rfl⟩ := storeWith_next (e ▸ ht)
    exact (h.of_changesOnlyBytes hu).advance

/-- Settles O55: a step that answers is the `exec` of the decoded instruction, which keeps the invariant. -/
theorem stepKeepsTheInvariant : Obligations.StepKeepsTheInvariant := by
  intro s t hs ht
  obtain ⟨-, -, i, -, he⟩ := step_next ht
  exact hs.exec he

end Sys2Proof
end

section
/-! PROOFS. The statements of 10_state.md on refusals, the pc, a step and register 0. -/

namespace Sys2Proof

open Sys2Proof.Machine Sys2Proof.Claims

/-! ## Refusals (log 12) -/

theorem jumpTo_ne_refused (target : Word) (u : State) (r : Refusal) : jumpTo target u ≠ .refused r := by
  obtain ⟨-, e⟩ | ⟨-, e⟩ := jumpTo_cases target u <;> simp [e]

theorem branchIf_ne_refused (taken : Bool) (off : BitVec 13) (s : State) (r : Refusal) :
    branchIf taken off s ≠ .refused r := by
  cases taken
  · simp [branchIf]
  · simpa [branchIf] using jumpTo_ne_refused (s.pc + immB off) s r

theorem loadWith_ne_refused (w : AccessWidth) (addr : Word) (rd : RegIdx) (v : Word) (s : State) (r : Refusal) :
    loadWith w addr rd v s ≠ .refused r := by
  obtain ⟨-, -, e⟩ | ⟨-, e⟩ | ⟨-, -, e⟩ := loadWith_cases w addr rd v s <;> simp [e, writeResult]

theorem storeWith_ne_refused (w : AccessWidth) (addr : Word) (u s : State) (r : Refusal) :
    storeWith w addr u s ≠ .refused r := by
  obtain ⟨-, -, e⟩ | ⟨-, e⟩ | ⟨-, -, e⟩ := storeWith_cases w addr u s <;> simp [e]

theorem exec_ne_refused (i : Instr) (s : State) (r : Refusal) : exec i s ≠ .refused r := by
  cases exec_form i s with
  | compute rd v e => simp [e, writeResult]
  | branch taken off e => exact e ▸ branchIf_ne_refused taken off s r
  | jump rd target e => exact e ▸ jumpTo_ne_refused target _ r
  | load w addr rd v e => exact e ▸ loadWith_ne_refused w addr rd v s r
  | store w addr u e => exact e ▸ storeWith_ne_refused w addr u s r

/-- From an aligned pc a step faults or runs an instruction, and neither is a refusal. -/
theorem step_ne_refused {s : State} (hpc : s.pc.toNat % 4 = 0) (r : Refusal) : step s ≠ .refused r := by
  cases ha : admits s.cfg s.pc 4 .fetch with
  | false => simp [step_of_not_admitted hpc ha]
  | true =>
    cases hd : decode s.cfg (wordAt s s.pc) with
    | error e => simp [step_of_decode_error hpc ha hd]
    | ok i => exact step_of_decode_ok hpc ha hd ▸ exec_ne_refused i s r

/-- Settles O10: no shared form refuses, and the front of a step refuses on its first test only. -/
theorem onlyAMisalignedPcIsRefused : Obligations.OnlyAMisalignedPcIsRefused := by
  refine ⟨exec_ne_refused, fun s r => ?_⟩
  by_cases hpc : s.pc.toNat % 4 = 0
  · simp [hpc, step_ne_refused hpc r]
  · simp [hpc, step_of_misaligned_pc hpc, eq_comm]

/-! ## The pc (rule R25) -/

/-- Settles O50: of the five forms only a jump and a taken branch set the pc to something else. -/
theorem pcAdvancesByFour : Obligations.PcAdvancesByFour := by
  intro i s t ht hbranch hjump
  cases exec_form i s with
  | compute rd v e => simp [writeResult_next (e ▸ ht)]
  | branch taken off e taken_iff =>
    obtain ⟨htaken, -, -⟩ | ⟨-, rfl⟩ := branchIf_next (e ▸ ht)
    · exact absurd (taken_iff.1 htaken) hbranch
    · rfl
  | jump rd target e is_jump => exact absurd is_jump hjump
  | load w addr rd v e =>
    obtain ⟨-, rfl⟩ := loadWith_next (e ▸ ht)
    simp
  | store w addr u e hu =>
    obtain ⟨-, rfl⟩ := storeWith_next (e ▸ ht)
    simp [hu.pc_eq]

/-! ## A step (rule R33) -/

/-- Settles O7. -/
theorem stepRunsTheDecodedInstruction : Obligations.StepRunsTheDecodedInstruction :=
  fun _ _ hpc ha hd => step_of_decode_ok hpc ha hd

/-! ## Register 0 (rule R22) -/

/-- With `X0_ZERO` register 0 reads zero in every state. -/
theorem readReg_zero {s : State} (hx : s.cfg.x0Zero = true) : s.readReg 0 = 0#32 := by
  simp [State.readReg, State.isZeroReg, hx]

/-- With `X0_ZERO` a write to register 0 is discarded. -/
theorem writeReg_zero {s : State} (hx : s.cfg.x0Zero = true) (v : Word) : s.writeReg 0 v = s := by
  simp [State.writeReg, State.isZeroReg, hx]

/-- Without `X0_ZERO` no register is the constant. -/
theorem isZeroReg_of_x0Zero_false {s : State} (hx : s.cfg.x0Zero = false) (i : RegIdx) : s.isZeroReg i = false := by
  simp [State.isZeroReg, hx]

/-- Settles O11: a write keeps the configuration, so the constant register reads zero after it too. -/
theorem registerZeroIsConstantOrOrdinary : Obligations.RegisterZeroIsConstantOrOrdinary := by
  intro s i v
  constructor
  · intro hx
    exact ⟨readReg_zero hx, readReg_zero (by simpa using hx), fun r => by rw [writeReg_zero hx]⟩
  · intro hx r
    simp [State.readReg_writeReg, isZeroReg_of_x0Zero_false hx]

end Sys2Proof
end

section
/-! PROOFS. The layer that the statements about memory rest on: admission byte by byte, reads through their bytes, and all
that an instruction can do to memory (20_memory.md). -/

namespace Sys2Proof.Machine

open Sys2Proof.Claims

/-! ## Admission, byte by byte (rule R42) -/

theorem admits_iff (c : Config) (addr : Word) (n : Nat) (kind : AccessKind) :
    admits c addr n kind = true ↔ ∀ k, k < n → admitByte c kind (addr + BitVec.ofNat 32 k) = true := by
  simp [admits]

/-- An access of one byte is admitted as its byte is. -/
@[simp] theorem admits_one (c : Config) (addr : Word) (kind : AccessKind) :
    admits c addr 1 kind = admitByte c kind addr := by
  simp [admits]

/-- One byte that can be fetched keeps a whole store out (rule R58, log 18). -/
theorem admits_store_of_fetch_byte {c : Config} {addr : Word} {n k : Nat} (hk : k < n)
    (hf : admitByte c .fetch (addr + BitVec.ofNat 32 k) = true) : admits c addr n .store = false := by
  by_contra hs
  have hstore := admits_byte (Bool.eq_true_of_not_eq_false hs) hk
  simp [admitByte_store_not_fetch hstore] at hf

/-- A byte that can be fetched is none of the bytes of an admitted store. -/
theorem ne_of_admits_store_of_fetch {c : Config} {addr a : Word} {n k : Nat} (hs : admits c addr n .store = true)
    (hf : admitByte c .fetch a = true) (hk : k < n) : a ≠ addr + BitVec.ofNat 32 k := by
  rintro rfl
  simp [admits_store_of_fetch_byte hk hf] at hs

/-! ## Reads, in terms of their bytes (rule R44) -/

/-- The two states have one configuration and the same `n` bytes from `addr` upwards. -/
structure SameBytes (s u : State) (addr : Word) (n : Nat) : Prop where
  cfg_eq : u.cfg = s.cfg
  byteAt_eq : ∀ k, k < n → u.byteAt (addr + BitVec.ofNat 32 k) = s.byteAt (addr + BitVec.ofNat 32 k)

theorem SameBytes.byteAt_first {s u : State} {addr : Word} {n : Nat} (h : SameBytes s u addr n) (hn : 0 < n) :
    u.byteAt addr = s.byteAt addr := by
  simpa using h.byteAt_eq 0 hn

theorem SameBytes.read8_eq {s u : State} {addr : Word} (h : SameBytes s u addr (widthBytes .byte)) :
    u.read8 addr = s.read8 addr :=
  h.byteAt_first (by decide)

theorem SameBytes.read16_eq {s u : State} {addr : Word} (h : SameBytes s u addr (widthBytes .half)) :
    u.read16 addr = s.read16 addr := by
  simp only [State.read16, h.cfg_eq, h.byteAt_first (by decide), h.byteAt_eq 1 (by decide)]

theorem SameBytes.read32_eq {s u : State} {addr : Word} (h : SameBytes s u addr (widthBytes .word)) :
    u.read32 addr = s.read32 addr := by
  simp only [State.read32, h.cfg_eq, h.byteAt_first (by decide), h.byteAt_eq 1 (by decide), h.byteAt_eq 2 (by decide),
    h.byteAt_eq 3 (by decide)]

/-- The word of the statements is the model's 4-byte read. -/
theorem wordAt_eq_read32 (s : State) (a : Word) : wordAt s a = s.read32 a := by
  unfold wordAt State.read32 wordOfBytes
  cases s.cfg.byteOrder <;> rfl

theorem wordAt_of_little {s : State} (h : s.cfg.byteOrder = .little) (a : Word) :
    wordAt s a = s.byteAt (a + 3#32) ++ s.byteAt (a + 2#32) ++ s.byteAt (a + 1#32) ++ s.byteAt a := by
  simp [wordAt, h]

theorem read16_of_little {s : State} (h : s.cfg.byteOrder = .little) (a : Word) :
    s.read16 a = s.byteAt (a + 1#32) ++ s.byteAt a := by
  simp [State.read16, h]

/-! ## All that an instruction can do to memory -/

/-- An instruction that completes leaves memory alone, or is an admitted store that changes its own bytes only. -/
theorem exec_memory_cases {i : Instr} {s t : State} (ht : exec i s = .next t) :
    SameMemory s t ∨ ∃ n addr, storeAccess i s = some (n, addr) ∧ admits s.cfg addr n .store = true ∧ t.cfg = s.cfg ∧
      ∀ a, (∀ k, k < n → a ≠ addr + BitVec.ofNat 32 k) → t.byteAt a = s.byteAt a := by
  cases exec_form i s with
  | compute rd v e =>
    obtain rfl := writeResult_next (e ▸ ht)
    exact .inl ⟨by simp, by simp⟩
  | branch taken off e =>
    obtain ⟨-, -, rfl⟩ | ⟨-, rfl⟩ := branchIf_next (e ▸ ht) <;> exact .inl ⟨rfl, fun _ => rfl⟩
  | jump rd target e =>
    obtain ⟨-, rfl⟩ := jumpTo_next (e ▸ ht)
    exact .inl ⟨by simp, by simp⟩
  | load w addr rd v e =>
    obtain ⟨-, rfl⟩ := loadWith_next (e ▸ ht)
    exact .inl ⟨by simp, by simp⟩
  | store w addr u e written target_eq load_eq store_eq =>
    obtain ⟨hf, rfl⟩ := storeWith_next (e ▸ ht)
    exact .inr ⟨_, addr, store_eq, (storeFault_none hf).2, written.cfg_eq, written.byteAt_eq⟩

end Sys2Proof.Machine
end

section
/-! PROOFS. What can be fetched never changes: over an instruction, a step, a run (20_memory.md rule R58). -/

namespace Sys2Proof

open Sys2Proof.Machine Sys2Proof.Claims

/-- From `s` to `t` the configuration and every byte that can be fetched stayed what they were. -/
structure KeepsFetchable (s t : State) : Prop where
  cfg_eq : t.cfg = s.cfg
  byteAt_eq : ∀ a, admitByte s.cfg .fetch a = true → t.byteAt a = s.byteAt a

theorem KeepsFetchable.refl (s : State) : KeepsFetchable s s := ⟨rfl, fun _ _ => rfl⟩

theorem KeepsFetchable.trans {s u t : State} (h : KeepsFetchable s u) (h' : KeepsFetchable u t) :
    KeepsFetchable s t where
  cfg_eq := h'.cfg_eq.trans h.cfg_eq
  byteAt_eq a ha := (h'.byteAt_eq a (h.cfg_eq.symm ▸ ha)).trans (h.byteAt_eq a ha)

/-- A store that completes was admitted, so none of its bytes can be fetched. -/
theorem KeepsFetchable.of_exec {i : Instr} {s t : State} (ht : exec i s = .next t) : KeepsFetchable s t := by
  obtain ⟨hc, hb⟩ | ⟨n, addr, -, hs, hc, hb⟩ := exec_memory_cases ht
  · exact ⟨hc, fun a _ => hb a⟩
  · exact ⟨hc, fun a hf => hb a fun k hk => ne_of_admits_store_of_fetch hs hf hk⟩

theorem KeepsFetchable.of_run {k : Nat} {s t : State} (ht : Host.Core.run Sys2Proof.core k s = .next t) :
    KeepsFetchable s t := by
  induction k generalizing s with
  | zero =>
    obtain rfl : s = t := Host.Outcome.next.inj ht
    exact .refl s
  | succ k ih =>
    obtain ⟨u, hu, hrest⟩ := core_run_next ht
    obtain ⟨-, -, i, -, he⟩ := step_next hu
    exact (KeepsFetchable.of_exec he).trans (ih hrest)

/-- A word whose four bytes can be fetched reads as before. -/
theorem KeepsFetchable.wordAt_eq {s t : State} (h : KeepsFetchable s t) {a : Word}
    (ha : admits s.cfg a 4 .fetch = true) : wordAt t a = wordAt s a := by
  have hbytes : SameBytes s t a (widthBytes .word) := ⟨h.cfg_eq, fun k hk => h.byteAt_eq _ (admits_byte ha hk)⟩
  rw [wordAt_eq_read32, wordAt_eq_read32, hbytes.read32_eq]

/-- Settles O57: every step of the run keeps what can be fetched, and `TEXT` can be fetched. -/
theorem programBytesNeverChange : Obligations.ProgramBytesNeverChange := by
  intro k s t ht
  have h := KeepsFetchable.of_run ht
  exact ⟨h.cfg_eq, fun a ha => h.byteAt_eq a (admitByte_fetch_of_text ha), fun a ha => h.wordAt_eq ha⟩

/-- Settles O49, by what an instruction can do to memory. -/
theorem onlyStoresChangeMemory : Obligations.OnlyStoresChangeMemory := by
  intro i s t ht a ha
  obtain ⟨-, hb⟩ | ⟨n, addr, haccess, -, -, hb⟩ := exec_memory_cases ht
  · exact hb a
  · exact hb a (ha n addr haccess)

end Sys2Proof
end

section
/-! PROOFS. Loads depend on their own bytes only (20_memory.md rule R51). -/

namespace Sys2Proof

open Sys2Proof.Machine Sys2Proof.Claims

/-- The instruction is the load of width `w` at `x[rs1] + imm` into `rd`, in every state, and the value it loads from an
address is a function of the bytes of the access alone. -/
structure IsLoad (i : Instr) (w : AccessWidth) (rd rs1 : RegIdx) (imm : BitVec 12) (value : State → Word → Word) :
    Prop where
  exec_eq : ∀ s, exec i s = loadWith w (loadAddress s rs1 imm) rd (value s (loadAddress s rs1 imm)) s
  access_eq : ∀ s, loadAccess i s = some (widthBytes w, loadAddress s rs1 imm)
  value_eq : ∀ s u addr, SameBytes s u addr (widthBytes w) → value u addr = value s addr

/-- What has a load access is one of the five loads. -/
theorem isLoad_of_loadAccess {i : Instr} {s : State} {n : Nat} {addr : Word} (h : loadAccess i s = some (n, addr)) :
    ∃ w rd rs1 imm value, IsLoad i w rd rs1 imm value := by
  cases i
  case lb rd rs1 imm =>
    exact ⟨.byte, rd, rs1, imm, fun s a => (s.read8 a).signExtend 32, fun _ => rfl, fun _ => rfl,
      fun _ _ _ hb => by rw [hb.read8_eq]⟩
  case lbu rd rs1 imm =>
    exact ⟨.byte, rd, rs1, imm, fun s a => (s.read8 a).setWidth 32, fun _ => rfl, fun _ => rfl,
      fun _ _ _ hb => by rw [hb.read8_eq]⟩
  case lh rd rs1 imm =>
    exact ⟨.half, rd, rs1, imm, fun s a => (s.read16 a).signExtend 32, fun _ => rfl, fun _ => rfl,
      fun _ _ _ hb => by rw [hb.read16_eq]⟩
  case lhu rd rs1 imm =>
    exact ⟨.half, rd, rs1, imm, fun s a => (s.read16 a).setWidth 32, fun _ => rfl, fun _ => rfl,
      fun _ _ _ hb => by rw [hb.read16_eq]⟩
  case lw rd rs1 imm =>
    exact ⟨.word, rd, rs1, imm, State.read32, fun _ => rfl, fun _ => rfl, fun _ _ _ hb => hb.read32_eq⟩
  all_goals cases h

/-- The checks of a load look at the configuration only. -/
theorem loadFault_congr {s u : State} (hc : u.cfg = s.cfg) (addr : Word) (w : AccessWidth) :
    u.loadFault addr w = s.loadFault addr w := by
  simp [State.loadFault, State.alignmentOk, hc]

theorem loadWith_of_no_fault {s : State} {addr : Word} {w : AccessWidth} (h : s.loadFault addr w = none) (rd : RegIdx)
    (v : Word) : loadWith w addr rd v s = .next (s.writeReg rd v).advance := by
  simp [loadWith, h, writeResult]

/-- The same write to states with the same registers gives the same registers. -/
theorem sameRegs_writeReg {s u : State} (hr : SameRegs s u) (hc : u.cfg = s.cfg) (rd : RegIdx) (v : Word) :
    SameRegs (s.writeReg rd v) (u.writeReg rd v) := by
  intro r
  simp [State.readReg_writeReg, State.isZeroReg, hc, hr r]

theorem loadAddress_congr {s u : State} (hr : SameRegs s u) (rs1 : RegIdx) (imm : BitVec 12) :
    loadAddress u rs1 imm = loadAddress s rs1 imm := by
  simp [loadAddress, hr rs1]

/-- Settles O42: the address, the checks and the value are the same in both states, and so is the write that ends the
load. -/
theorem loadsReadOnlyTheirOwnBytes : Obligations.LoadsReadOnlyTheirOwnBytes := by
  intro i s u t n addr haccess hregs hpc hcfg hbytes ht
  obtain ⟨w, rd, rs1, imm, value, hload⟩ := isLoad_of_loadAccess haccess
  obtain ⟨rfl, rfl⟩ : widthBytes w = n ∧ loadAddress s rs1 imm = addr := by
    simpa [hload.access_eq s] using haccess
  obtain ⟨hfault, rfl⟩ := loadWith_next (hload.exec_eq s ▸ ht)
  have hvalue := hload.value_eq s u _ ⟨hcfg, hbytes⟩
  have hu := hload.exec_eq u
  rw [loadAddress_congr hregs, hvalue, loadWith_of_no_fault (loadFault_congr hcfg _ w ▸ hfault)] at hu
  exact ⟨_, hu, sameRegs_writeReg hregs hcfg rd _, by simp [hpc], by simp⟩

end Sys2Proof
end

section
/-! PROOFS. The statements of 20_memory.md on the fetch, on mixed widths, on admission and on alignment. -/

namespace Sys2Proof

open Sys2Proof.Machine Sys2Proof.Claims

/-- Settles O9: the front of a step, case by case, with the little-endian word. -/
theorem fetchIsCheckedThenReadsFourBytes : Obligations.FetchIsCheckedThenReadsFourBytes := by
  intro s hpc hlittle
  refine ⟨step_of_not_admitted hpc, fun ha => ?_⟩
  rw [← wordAt_of_little hlittle]
  cases hd : decode s.cfg (wordAt s s.pc) with
  | ok i => exact step_of_decode_ok hpc ha hd
  | error e => exact step_of_decode_error hpc ha hd

/-! ## Mixed widths, little-endian (rule R44) -/

section MixedWidths

variable {s : State} (addr : Word) (hl : s.cfg.byteOrder = .little)
include hl

theorem byteAt_write32_of_little (v : Word) {k : Nat} (hk : k < 4) :
    (s.write32 addr v).byteAt (addr + BitVec.ofNat 32 k) = v.extractLsb' (8 * k) 8 := by
  rw [State.byteAt_write32 s addr v hk, hl]
  rfl

theorem byteAt_write16_of_little (v : BitVec 16) {k : Nat} (hk : k < 2) :
    (s.write16 addr v).byteAt (addr + BitVec.ofNat 32 k) = v.extractLsb' (8 * k) 8 := by
  rw [State.byteAt_write16 s addr v hk, if_pos hl]

theorem byteAt_write16_first_of_little (v : BitVec 16) : (s.write16 addr v).byteAt addr = v.extractLsb' 0 8 := by
  simpa using byteAt_write16_of_little addr hl v (k := 0) (by omega)

/-- Each half of a stored word reads back: the half `k` addresses up begins at bit `8 * k`. -/
theorem read16_write32_of_little (v : Word) {k : Nat} (hk : k + 1 < 4) :
    (s.write32 addr v).read16 (addr + BitVec.ofNat 32 k) = v.extractLsb' (8 * k) 16 := by
  have haddr : addr + BitVec.ofNat 32 k + 1#32 = addr + BitVec.ofNat 32 (k + 1) := by
    rw [BitVec.add_assoc, BitVec.ofNat_add]
  rw [read16_of_little (by simpa using hl), haddr, byteAt_write32_of_little addr hl v hk,
    byteAt_write32_of_little addr hl v (by omega)]
  exact BitVec.extractLsb'_append_extractLsb'_eq_extractLsb' (by omega)

theorem read32_write32_of_little (v : Word) : (s.write32 addr v).read32 addr = v := by
  have hbyte {k : Nat} (hk : k < 4) := byteAt_write32_of_little addr hl v hk
  have hfirst : (s.write32 addr v).byteAt addr = v.extractLsb' 0 8 := by simpa using hbyte (k := 0) (by omega)
  rw [← wordAt_eq_read32, wordAt_of_little (by simpa using hl), hfirst, hbyte (k := 1) (by omega),
    hbyte (k := 2) (by omega), hbyte (k := 3) (by omega), BitVec.extractLsb'_append_extractLsb'_eq_extractLsb' (by omega),
    BitVec.extractLsb'_append_extractLsb'_eq_extractLsb' (by omega),
    BitVec.extractLsb'_append_extractLsb'_eq_extractLsb' (by omega)]
  exact BitVec.extractLsb'_eq_self

theorem read16_write16_of_little (v : BitVec 16) : (s.write16 addr v).read16 addr = v := by
  rw [read16_of_little (by simpa using hl), byteAt_write16_first_of_little addr hl v,
    byteAt_write16_of_little addr hl v (k := 1) (by omega),
    BitVec.extractLsb'_append_extractLsb'_eq_extractLsb' (by omega)]
  exact BitVec.extractLsb'_eq_self

end MixedWidths

/-- Settles O46: each read is the bytes of the write put together again. -/
theorem mixedWidthAccessesSeeTheSameBytes : Obligations.MixedWidthAccessesSeeTheSameBytes := by
  intro s addr hl
  refine ⟨fun v k hk => byteAt_write32_of_little addr hl v hk, fun v => ⟨?_, ?_, ?_⟩, fun v => ⟨?_, ?_, ?_⟩, fun v => ?_⟩
  · simpa using read16_write32_of_little addr hl v (k := 0) (by omega)
  · exact read16_write32_of_little addr hl v (k := 2) (by omega)
  · exact read32_write32_of_little addr hl v
  · exact read16_write16_of_little addr hl v
  · exact byteAt_write16_first_of_little addr hl v
  · exact byteAt_write16_of_little addr hl v (k := 1) (by omega)
  · exact State.byteAt_setByte_self s addr v

/-! ## Admission and alignment (rules R42, R49, R58) -/

/-- Settles O48: one byte of `TEXT`, or one that can be fetched, keeps the whole store out. -/
theorem accessesAreAdmittedByteByByte : Obligations.AccessesAreAdmittedByteByByte := by
  intro c addr n
  refine ⟨fun kind => ?_, fun k hk ht => ?_, fun k hk hf => ?_⟩
  · simp only [admits_one]
    exact admits_iff c addr n kind
  · exact admits_store_of_fetch_byte hk (admitByte_fetch_of_text ht)
  · exact admits_store_of_fetch_byte hk (admits_one .. ▸ hf)

/-- Settles O47: the multiple of the width next above the address is at most 2^32, as the width divides 2^32. -/
theorem alignedAccessesNeverWrap : Obligations.AlignedAccessesNeverWrap := by
  intro addr w ha k hk
  have hmod := (isAligned_iff addr w).1 ha
  have hroom : addr.toNat + k < 2 ^ 32 := by
    cases w <;> simp only [widthBytes] at hmod hk <;> omega
  rw [BitVec.toNat_add, BitVec.toNat_ofNat, Nat.add_mod_mod, Nat.mod_eq_of_lt hroom]

end Sys2Proof
end

section
/-! PROOFS. The layer that the statements about the encoding rest on: which decoder an opcode selects, what the match and
mask table fixes of a word, and the instruction of a row with the operands that a word holds (30_encoding.md rules R70 to
R85). -/

namespace Sys2Proof

/-! ## The opcode selects the decoder (rule R80) -/

section OpcodeDispatch

variable (c : Config) {w : Word}

theorem decode_of_opcodeLui (h : fieldOpcode w = opcodeLui) : decode c w = .ok (.lui (fieldRd w) (fieldImmU w)) := by
  rw [decode, h]; rfl

theorem decode_of_opcodeAuipc (h : fieldOpcode w = opcodeAuipc) : decode c w = .ok (.auipc (fieldRd w) (fieldImmU w)) := by
  rw [decode, h]; rfl

theorem decode_of_opcodeJalr (h : fieldOpcode w = opcodeJalr) : decode c w = decodeJalr w := by
  rw [decode, h]; rfl

theorem decode_of_opcodeBranch (h : fieldOpcode w = opcodeBranch) : decode c w = decodeBranch c w := by
  rw [decode, h]; rfl

theorem decode_of_opcodeLoad (h : fieldOpcode w = opcodeLoad) : decode c w = decodeLoad w := by
  rw [decode, h]; rfl

theorem decode_of_opcodeStore (h : fieldOpcode w = opcodeStore) : decode c w = decodeStore w := by
  rw [decode, h]; rfl

theorem decode_of_opcodeOpImm (h : fieldOpcode w = opcodeOpImm) : decode c w = decodeOpImm w := by
  rw [decode, h]; rfl

theorem decode_of_opcodeOp (h : fieldOpcode w = opcodeOp) : decode c w = decodeOp w := by
  rw [decode, h]; rfl

/-- `JAL_OPCODE` is tested last: what it shares with another opcode is never JAL. -/
theorem decode_of_not_mem_fixedOpcodes (h : fieldOpcode w ∉ fixedOpcodes) :
    decode c w = if fieldOpcode w = c.jalOpcode then .ok (.jal (fieldRd w) (fieldImmJ w)) else .error .opcode := by
  simp only [fixedOpcodes, List.mem_cons, List.not_mem_nil, or_false, not_or] at h
  obtain ⟨hload, hopImm, hauipc, hstore, hop, hlui, hbranch, hjalr⟩ := h
  simp only [decode, opcodeLui, opcodeAuipc, opcodeJalr, opcodeBranch, opcodeLoad, opcodeStore, opcodeOpImm, opcodeOp,
    hload, hopImm, hauipc, hstore, hop, hlui, hbranch, hjalr, if_false]

/-- `BLT_FUNCT3` and `BGEU_FUNCT3` are tested last in the same way. -/
theorem decodeBranch_of_not_mem_fixedBranchFunct3 (h : fieldFunct3 w ∉ fixedBranchFunct3) :
    decodeBranch c w = if fieldFunct3 w = c.bltFunct3 then .ok (.blt (fieldRs1 w) (fieldRs2 w) (fieldImmB w))
      else if fieldFunct3 w = c.bgeuFunct3 then .ok (.bgeu (fieldRs1 w) (fieldRs2 w) (fieldImmB w))
      else .error .branch := by
  simp only [fixedBranchFunct3, List.mem_cons, List.not_mem_nil, or_false, not_or] at h
  obtain ⟨hbeq, hbne, hbge, hbltu⟩ := h
  simp only [decodeBranch, hbeq, hbne, hbge, hbltu, if_false]

end OpcodeDispatch

/-! ## A word with given fixed fields is the layout of its operands -/

section Formats

variable {w : Word} {op f7 : BitVec 7} {f3 : BitVec 3}

theorem layoutR_of_fields (h7 : fieldFunct7 w = f7) (h3 : fieldFunct3 w = f3) (hop : fieldOpcode w = op) :
    layoutR f7 (fieldRs2 w) (fieldRs1 w) f3 (fieldRd w) op = w := by
  rw [← h7, ← h3, ← hop, layoutR_fields]

theorem layoutShift_of_fields (h7 : fieldFunct7 w = f7) (h3 : fieldFunct3 w = f3) (hop : fieldOpcode w = op) :
    layoutShift f7 (fieldShamt w) (fieldRs1 w) f3 (fieldRd w) op = w := by
  rw [← h7, ← h3, ← hop, layoutShift_fields]

theorem layoutI_of_fields (h3 : fieldFunct3 w = f3) (hop : fieldOpcode w = op) :
    layoutI (fieldImmI w) (fieldRs1 w) f3 (fieldRd w) op = w := by
  rw [← h3, ← hop, layoutI_fields]

theorem layoutS_of_fields (h3 : fieldFunct3 w = f3) (hop : fieldOpcode w = op) :
    layoutS (fieldImmS w) (fieldRs2 w) (fieldRs1 w) f3 op = w := by
  rw [← h3, ← hop, layoutS_fields]

theorem layoutB_of_fields (h3 : fieldFunct3 w = f3) (hop : fieldOpcode w = op) :
    layoutB (fieldImmB w) (fieldRs2 w) (fieldRs1 w) f3 op = w := by
  rw [← h3, ← hop, layoutB_fields]

theorem layoutU_of_fields (hop : fieldOpcode w = op) : layoutU (fieldImmU w) (fieldRd w) op = w := by
  rw [← hop, layoutU_fields]

theorem layoutJ_of_fields (hop : fieldOpcode w = op) : layoutJ (fieldImmJ w) (fieldRd w) op = w := by
  rw [← hop, layoutJ_fields]

end Formats

theorem funct3_cases (f : BitVec 3) :
    f = 0#3 ∨ f = 1#3 ∨ f = 2#3 ∨ f = 3#3 ∨ f = 4#3 ∨ f = 5#3 ∨ f = 6#3 ∨ f = 7#3 := by
  bv_omega

/-! ## A word that decodes is the word of its instruction, opcode by opcode -/

/-- The instruction is well formed, and the word is its encoding. -/
structure EncodedBy (c : Config) (w : Word) (i : Instr) : Prop where
  wellFormed : i.wellFormed = true
  encode_eq : encode c i = w

section Inversion

variable (c : Config) {w : Word} {i : Instr}

theorem decodeOp_ok (hop : fieldOpcode w = opcodeOp) (h : decodeOp w = .ok i) : EncodedBy c w i := by
  have h7 : fieldFunct7 w = 0b0000000#7 ∨ fieldFunct7 w = 0b0100000#7 ∨ fieldFunct7 w = 0b0000001#7 := by
    by_contra! hne
    obtain ⟨h0, h32, h1⟩ := hne
    rw [decodeOp, if_neg h0, if_neg h32, if_neg h1] at h
    cases h
  rcases h7 with h7 | h7 | h7 <;>
    rcases funct3_cases (fieldFunct3 w) with h3 | h3 | h3 | h3 | h3 | h3 | h3 | h3 <;> rw [decodeOp, h7, h3] at h <;>
    cases h <;> exact ⟨rfl, layoutR_of_fields h7 h3 hop⟩

/-- funct3 selects an instruction with an immediate, or one of the two shift arms, which test funct7 as well. -/
theorem decodeOpImm_ok (hop : fieldOpcode w = opcodeOpImm) (h : decodeOpImm w = .ok i) : EncodedBy c w i := by
  rcases funct3_cases (fieldFunct3 w) with h3 | h3 | h3 | h3 | h3 | h3 | h3 | h3 <;> rw [decodeOpImm, h3] at h
  case inr.inl =>
    by_cases h7 : fieldFunct7 w = 0b0000000#7
    · rw [h7] at h
      cases h
      exact ⟨rfl, layoutShift_of_fields h7 h3 hop⟩
    · simp [h7] at h
  case inr.inr.inr.inr.inr.inl =>
    by_cases h7 : fieldFunct7 w = 0b0000000#7
    · rw [h7] at h
      cases h
      exact ⟨rfl, layoutShift_of_fields h7 h3 hop⟩
    by_cases h7' : fieldFunct7 w = 0b0100000#7
    · rw [h7'] at h
      cases h
      exact ⟨rfl, layoutShift_of_fields h7' h3 hop⟩
    · simp [h7, h7'] at h
  all_goals
    cases h
    exact ⟨rfl, layoutI_of_fields h3 hop⟩

theorem decodeBranch_ok (hop : fieldOpcode w = opcodeBranch) (h : decodeBranch c w = .ok i) : EncodedBy c w i := by
  unfold decodeBranch at h
  split_ifs at h <;> cases h <;> exact ⟨fieldImmB_even w, layoutB_of_fields ‹_› hop⟩

theorem decodeLoad_ok (hop : fieldOpcode w = opcodeLoad) (h : decodeLoad w = .ok i) : EncodedBy c w i := by
  unfold decodeLoad at h
  split_ifs at h <;> cases h <;> exact ⟨rfl, layoutI_of_fields ‹_› hop⟩

theorem decodeStore_ok (hop : fieldOpcode w = opcodeStore) (h : decodeStore w = .ok i) : EncodedBy c w i := by
  unfold decodeStore at h
  split_ifs at h <;> cases h <;> exact ⟨rfl, layoutS_of_fields ‹_› hop⟩

theorem decodeJalr_ok (hop : fieldOpcode w = opcodeJalr) (h : decodeJalr w = .ok i) : EncodedBy c w i := by
  unfold decodeJalr at h
  split_ifs at h with h3
  cases h
  exact ⟨rfl, layoutI_of_fields h3 hop⟩

/-- What the decoder answers encodes to the word, in every configuration. -/
theorem decode_ok (h : decode c w = .ok i) : EncodedBy c w i := by
  by_cases hfixed : fieldOpcode w ∈ fixedOpcodes
  · simp only [fixedOpcodes, List.mem_cons, List.not_mem_nil, or_false] at hfixed
    obtain hop | hop | hop | hop | hop | hop | hop | hop := hfixed
    · exact decodeLoad_ok c hop (decode_of_opcodeLoad c hop ▸ h)
    · exact decodeOpImm_ok c hop (decode_of_opcodeOpImm c hop ▸ h)
    · cases (decode_of_opcodeAuipc c hop).symm.trans h
      exact ⟨rfl, layoutU_of_fields hop⟩
    · exact decodeStore_ok c hop (decode_of_opcodeStore c hop ▸ h)
    · exact decodeOp_ok c hop (decode_of_opcodeOp c hop ▸ h)
    · cases (decode_of_opcodeLui c hop).symm.trans h
      exact ⟨rfl, layoutU_of_fields hop⟩
    · exact decodeBranch_ok c hop (decode_of_opcodeBranch c hop ▸ h)
    · exact decodeJalr_ok c hop (decode_of_opcodeJalr c hop ▸ h)
  · rw [decode_of_not_mem_fixedOpcodes c hfixed] at h
    split_ifs at h with hjal
    cases h
    exact ⟨fieldImmJ_even w, layoutJ_of_fields hjal⟩

end Inversion

/-! ## The rows of the match and mask table (rule R84) -/

/-- The word is selected by the instruction's row. -/
def MeetsRow (c : Config) (i : Instr) (w : Word) : Prop := w &&& (tableRow c i).1 = (tableRow c i).2

theorem encode_meetsRow (c : Config) (i : Instr) : MeetsRow c i (encode c i) := by
  cases i
  case add | sub | mul | mulh | mulhsu | mulhu | div | divu | rem | remu | xor | or | and | sll | srl | sra | slt | sltu =>
    exact layoutR_mask _ _ _ _ _ _
  case slli | srli | srai => exact layoutShift_mask _ _ _ _ _ _
  case addi | xori | ori | andi | slti | sltiu | jalr | lb | lh | lbu | lhu | lw => exact layoutI_mask _ _ _ _ _
  case sb | sh | sw => exact layoutS_mask _ _ _ _ _
  case beq | bne | blt | bge | bltu | bgeu => exact layoutB_mask _ _ _ _ _
  case lui | auipc => exact layoutU_mask _ _ _
  case jal => exact layoutJ_mask _ _ _

/-! A row's mask covers the fields that the decoder tests, so that a word of the row has those of the match. -/

section MaskedFields

variable {w mask pattern : Word} (h : w &&& mask = pattern)
include h

theorem fieldOpcode_of_masked (hmask : fieldOpcode mask = BitVec.allOnes 7 := by decide) :
    fieldOpcode w = fieldOpcode pattern := by
  unfold fieldOpcode at hmask ⊢
  rw [← h, BitVec.extractLsb'_and, hmask, BitVec.and_allOnes]

theorem fieldFunct3_of_masked (hmask : fieldFunct3 mask = BitVec.allOnes 3 := by decide) :
    fieldFunct3 w = fieldFunct3 pattern := by
  unfold fieldFunct3 at hmask ⊢
  rw [← h, BitVec.extractLsb'_and, hmask, BitVec.and_allOnes]

theorem fieldFunct7_of_masked (hmask : fieldFunct7 mask = BitVec.allOnes 7 := by decide) :
    fieldFunct7 w = fieldFunct7 pattern := by
  unfold fieldFunct7 at hmask ⊢
  rw [← h, BitVec.extractLsb'_and, hmask, BitVec.and_allOnes]

end MaskedFields

/-- The instruction of the same row whose operands are those the word holds. -/
def Instr.withOperandsOf (w : Word) : Instr → Instr
  | .lui _ _ => .lui (fieldRd w) (fieldImmU w)
  | .auipc _ _ => .auipc (fieldRd w) (fieldImmU w)
  | .add _ _ _ => .add (fieldRd w) (fieldRs1 w) (fieldRs2 w)
  | .addi _ _ _ => .addi (fieldRd w) (fieldRs1 w) (fieldImmI w)
  | .sub _ _ _ => .sub (fieldRd w) (fieldRs1 w) (fieldRs2 w)
  | .mul _ _ _ => .mul (fieldRd w) (fieldRs1 w) (fieldRs2 w)
  | .mulh _ _ _ => .mulh (fieldRd w) (fieldRs1 w) (fieldRs2 w)
  | .mulhsu _ _ _ => .mulhsu (fieldRd w) (fieldRs1 w) (fieldRs2 w)
  | .mulhu _ _ _ => .mulhu (fieldRd w) (fieldRs1 w) (fieldRs2 w)
  | .div _ _ _ => .div (fieldRd w) (fieldRs1 w) (fieldRs2 w)
  | .divu _ _ _ => .divu (fieldRd w) (fieldRs1 w) (fieldRs2 w)
  | .rem _ _ _ => .rem (fieldRd w) (fieldRs1 w) (fieldRs2 w)
  | .remu _ _ _ => .remu (fieldRd w) (fieldRs1 w) (fieldRs2 w)
  | .xor _ _ _ => .xor (fieldRd w) (fieldRs1 w) (fieldRs2 w)
  | .xori _ _ _ => .xori (fieldRd w) (fieldRs1 w) (fieldImmI w)
  | .or _ _ _ => .or (fieldRd w) (fieldRs1 w) (fieldRs2 w)
  | .ori _ _ _ => .ori (fieldRd w) (fieldRs1 w) (fieldImmI w)
  | .and _ _ _ => .and (fieldRd w) (fieldRs1 w) (fieldRs2 w)
  | .andi _ _ _ => .andi (fieldRd w) (fieldRs1 w) (fieldImmI w)
  | .sll _ _ _ => .sll (fieldRd w) (fieldRs1 w) (fieldRs2 w)
  | .slli _ _ _ => .slli (fieldRd w) (fieldRs1 w) (fieldShamt w)
  | .srl _ _ _ => .srl (fieldRd w) (fieldRs1 w) (fieldRs2 w)
  | .srli _ _ _ => .srli (fieldRd w) (fieldRs1 w) (fieldShamt w)
  | .sra _ _ _ => .sra (fieldRd w) (fieldRs1 w) (fieldRs2 w)
  | .srai _ _ _ => .srai (fieldRd w) (fieldRs1 w) (fieldShamt w)
  | .slt _ _ _ => .slt (fieldRd w) (fieldRs1 w) (fieldRs2 w)
  | .slti _ _ _ => .slti (fieldRd w) (fieldRs1 w) (fieldImmI w)
  | .sltiu _ _ _ => .sltiu (fieldRd w) (fieldRs1 w) (fieldImmI w)
  | .sltu _ _ _ => .sltu (fieldRd w) (fieldRs1 w) (fieldRs2 w)
  | .jal _ _ => .jal (fieldRd w) (fieldImmJ w)
  | .jalr _ _ _ => .jalr (fieldRd w) (fieldRs1 w) (fieldImmI w)
  | .beq _ _ _ => .beq (fieldRs1 w) (fieldRs2 w) (fieldImmB w)
  | .bne _ _ _ => .bne (fieldRs1 w) (fieldRs2 w) (fieldImmB w)
  | .blt _ _ _ => .blt (fieldRs1 w) (fieldRs2 w) (fieldImmB w)
  | .bge _ _ _ => .bge (fieldRs1 w) (fieldRs2 w) (fieldImmB w)
  | .bltu _ _ _ => .bltu (fieldRs1 w) (fieldRs2 w) (fieldImmB w)
  | .bgeu _ _ _ => .bgeu (fieldRs1 w) (fieldRs2 w) (fieldImmB w)
  | .lb _ _ _ => .lb (fieldRd w) (fieldRs1 w) (fieldImmI w)
  | .lh _ _ _ => .lh (fieldRd w) (fieldRs1 w) (fieldImmI w)
  | .lbu _ _ _ => .lbu (fieldRd w) (fieldRs1 w) (fieldImmI w)
  | .lhu _ _ _ => .lhu (fieldRd w) (fieldRs1 w) (fieldImmI w)
  | .lw _ _ _ => .lw (fieldRd w) (fieldRs1 w) (fieldImmI w)
  | .sb _ _ _ => .sb (fieldRs1 w) (fieldRs2 w) (fieldImmS w)
  | .sh _ _ _ => .sh (fieldRs1 w) (fieldRs2 w) (fieldImmS w)
  | .sw _ _ _ => .sw (fieldRs1 w) (fieldRs2 w) (fieldImmS w)

theorem tableRow_withOperandsOf (c : Config) (w : Word) (i : Instr) :
    tableRow c (i.withOperandsOf w) = tableRow c i := by
  cases i <;> rfl

/-- No operand bit is dropped or moved by the encoder. -/
theorem withOperandsOf_encode (c : Config) {i : Instr} (hwf : i.wellFormed = true) :
    i.withOperandsOf (encode c i) = i := by
  cases i
  case jal rd off => simp [Instr.withOperandsOf, encode, fieldImmJ_layoutJ off rd c.jalOpcode hwf]
  case beq rs1 rs2 off | bne rs1 rs2 off | blt rs1 rs2 off | bge rs1 rs2 off | bltu rs1 rs2 off | bgeu rs1 rs2 off =>
    simp [Instr.withOperandsOf, encode, fieldImmB_layoutB off rs2 rs1 _ _ hwf]
  all_goals simp [Instr.withOperandsOf, encode]

/-- The configuration leaves the instruction words of its own. Only the three encoding parameters can fail to, as the
decoder tests the other encodings first. -/
def Config.leavesWordsTo (c : Config) : Instr → Prop
  | .jal _ _ => c.jalOpcode ∉ fixedOpcodes
  | .blt _ _ _ => c.bltFunct3 ∉ fixedBranchFunct3
  | .bgeu _ _ _ => c.bgeuFunct3 ∉ fixedBranchFunct3 ∧ c.bgeuFunct3 ≠ c.bltFunct3
  | _ => True

theorem Config.leavesWordsTo_of_encodingFree {c : Config} (h : c.encodingFree = true) (i : Instr) :
    c.leavesWordsTo i := by
  simp only [Config.encodingFree, Bool.and_eq_true, Bool.not_eq_true', List.contains_eq_mem, decide_eq_false_iff_not,
    bne_iff_ne] at h
  obtain ⟨⟨⟨⟨-, hjal⟩, hblt⟩, hbgeu⟩, hne⟩ := h
  cases i
  case jal => exact hjal
  case blt => exact hblt
  case bgeu => exact ⟨hbgeu, hne.symm⟩
  all_goals trivial

/-- A word that a row selects decodes to the instruction of the row with the operands that the word holds. -/
theorem decode_of_meetsRow {c : Config} {i : Instr} {w : Word} (hc : c.leavesWordsTo i) (h : MeetsRow c i w) :
    decode c w = .ok (i.withOperandsOf w) := by
  cases i <;> simp only [MeetsRow, tableRow] at h <;> have hop := fieldOpcode_of_masked h
  case lui => exact decode_of_opcodeLui c hop
  case auipc => exact decode_of_opcodeAuipc c hop
  case jal =>
    replace hop : fieldOpcode w = c.jalOpcode := hop.trans (fieldOpcode_layoutJ ..)
    rw [decode_of_not_mem_fixedOpcodes c (hop ▸ hc), if_pos hop]
    rfl
  case blt =>
    have h3 : fieldFunct3 w = c.bltFunct3 := (fieldFunct3_of_masked h).trans (fieldFunct3_layoutB ..)
    replace hop : fieldOpcode w = opcodeBranch := hop.trans (fieldOpcode_layoutB ..)
    rw [decode_of_opcodeBranch c hop, decodeBranch_of_not_mem_fixedBranchFunct3 c (h3 ▸ hc), if_pos h3]
    rfl
  case bgeu =>
    have h3 : fieldFunct3 w = c.bgeuFunct3 := (fieldFunct3_of_masked h).trans (fieldFunct3_layoutB ..)
    replace hop : fieldOpcode w = opcodeBranch := hop.trans (fieldOpcode_layoutB ..)
    rw [decode_of_opcodeBranch c hop, decodeBranch_of_not_mem_fixedBranchFunct3 c (h3 ▸ hc.1), if_neg (h3 ▸ hc.2),
      if_pos h3]
    rfl
  case beq | bne | bge | bltu =>
    rw [decode_of_opcodeBranch c hop, decodeBranch, fieldFunct3_of_masked h]
    rfl
  case lb | lh | lbu | lhu | lw =>
    rw [decode_of_opcodeLoad c hop, decodeLoad, fieldFunct3_of_masked h]
    rfl
  case sb | sh | sw =>
    rw [decode_of_opcodeStore c hop, decodeStore, fieldFunct3_of_masked h]
    rfl
  case jalr =>
    rw [decode_of_opcodeJalr c hop, decodeJalr, fieldFunct3_of_masked h]
    rfl
  case addi | xori | ori | andi | slti | sltiu =>
    rw [decode_of_opcodeOpImm c hop, decodeOpImm, fieldFunct3_of_masked h]
    rfl
  case slli | srli | srai =>
    rw [decode_of_opcodeOpImm c hop, decodeOpImm, fieldFunct3_of_masked h, fieldFunct7_of_masked h]
    rfl
  all_goals
    rw [decode_of_opcodeOp c hop, decodeOp, fieldFunct3_of_masked h, fieldFunct7_of_masked h]
    rfl

end Sys2Proof
end

section
/-! PROOFS. The statements of 30_encoding.md. -/

namespace Sys2Proof

open Sys2Proof.Machine Sys2Proof.Claims

/-- Settles O1: an encoded instruction meets its own row, and the operands in the word are its own. -/
theorem decodeOfEncodeIsTheInstruction : Obligations.DecodeOfEncodeIsTheInstruction := by
  intro c i hc hwf
  rw [decode_of_meetsRow (Config.leavesWordsTo_of_encodingFree hc i) (encode_meetsRow c i), withOperandsOf_encode c hwf]

/-- Settles O2: each arm of the decoder leaves no bit of the word open. -/
theorem encodeOfDecodeIsTheWord : Obligations.EncodeOfDecodeIsTheWord := by
  intro c w i h
  exact ⟨(decode_ok c h).wellFormed, (decode_ok c h).encode_eq⟩

/-! ## The match and mask table (rule R84) -/

theorem meetsRow_of_decode {c : Config} {w : Word} {i : Instr} (h : decode c w = .ok i) : MeetsRow c i w :=
  (decode_ok c h).encode_eq ▸ encode_meetsRow c i

/-- A row selects exactly the words that decode to an instruction of the row. -/
theorem meetsRow_iff {c : Config} (hc : c.encodingFree = true) (w : Word) (i : Instr) :
    MeetsRow c i w ↔ ∃ j, decode c w = .ok j ∧ tableRow c j = tableRow c i := by
  constructor
  · intro h
    exact ⟨_, decode_of_meetsRow (Config.leavesWordsTo_of_encodingFree hc i) h, tableRow_withOperandsOf c w i⟩
  · rintro ⟨j, hj, hrow⟩
    have hmeets := meetsRow_of_decode hj
    rwa [MeetsRow, hrow] at hmeets

theorem tableRow_match_and_mask (c : Config) (i : Instr) : (tableRow c i).2 &&& (tableRow c i).1 = (tableRow c i).2 := by
  rw [← encode_meetsRow c i, BitVec.and_assoc, BitVec.and_self]

/-- Where two matches, each under its mask, differ in no bit of both masks, the first mask takes their union to the first
match. -/
theorem or_and_mask {n : Nat} {m m' p p' : BitVec n} (hp : p &&& m = p) (hp' : p' &&& m' = p')
    (h : (m &&& m') &&& (p ^^^ p') = 0#n) : (p ||| p') &&& m = p := by
  have bits : ∀ m m' p p' : Bool, (p && m) = p → (p' && m') = p' → ((m && m') && (p ^^ p')) = false →
      ((p || p') && m) = p := by decide
  ext k hk
  have hk' := congrArg (·[k]) h
  have hpk := congrArg (·[k]) hp
  have hpk' := congrArg (·[k]) hp'
  simp only [BitVec.getElem_and, BitVec.getElem_or, BitVec.getElem_xor, BitVec.getElem_zero] at hk' hpk hpk' ⊢
  exact bits _ _ _ _ hpk hpk' hk'

/-- Two rows that no bit tells apart select a common word, which decodes to one instruction only: they are one row. -/
theorem tableRow_eq_of_overlap {c : Config} (hc : c.encodingFree = true) {i j : Instr}
    (h : ((tableRow c i).1 &&& (tableRow c j).1) &&& ((tableRow c i).2 ^^^ (tableRow c j).2) = 0#32) :
    tableRow c i = tableRow c j := by
  have hi : MeetsRow c i ((tableRow c i).2 ||| (tableRow c j).2) :=
    or_and_mask (tableRow_match_and_mask c i) (tableRow_match_and_mask c j) h
  have hj : MeetsRow c j ((tableRow c i).2 ||| (tableRow c j).2) := by
    rw [BitVec.or_comm]
    refine or_and_mask (tableRow_match_and_mask c j) (tableRow_match_and_mask c i) ?_
    rw [BitVec.and_comm (tableRow c j).1, BitVec.xor_comm, h]
  obtain ⟨a, ha, hai⟩ := (meetsRow_iff hc _ i).1 hi
  obtain ⟨b, hb, hbj⟩ := (meetsRow_iff hc _ j).1 hj
  obtain rfl : a = b := Except.ok.inj (ha.symm.trans hb)
  exact hai.symm.trans hbj

theorem no_row_iff_decode_error {c : Config} (hc : c.encodingFree = true) (w : Word) :
    (∀ i : Instr, ¬ MeetsRow c i w) ↔ ∃ e, decode c w = .error e := by
  constructor
  · intro h
    cases hd : decode c w with
    | error e => exact ⟨e, rfl⟩
    | ok i => exact absurd (meetsRow_of_decode hd) (h i)
  · rintro ⟨e, he⟩ i hi
    obtain ⟨j, hj, -⟩ := (meetsRow_iff hc w i).1 hi
    cases he.symm.trans hj

/-- With the values of 00_scope.md rule R8 no two instructions share a word. -/
theorem encodingFree_of_encodingOfR8 {c : Config} (h : EncodingOfR8 c) : c.encodingFree = true := by
  obtain ⟨hjal, hblt, hbgeu⟩ := h
  rw [Config.encodingFree, hjal, hblt, hbgeu]
  decide

/-- Settles O3: both directions go through the instruction that the word decodes to. -/
theorem decodeFollowsTheMatchAndMaskTable : Obligations.DecodeFollowsTheMatchAndMaskTable := by
  refine ⟨fun c i j hc hne h => hne (tableRow_eq_of_overlap hc h), fun c w i hc => meetsRow_iff hc w i,
    fun c w hc => no_row_iff_decode_error hc w, fun c h => ⟨encodingFree_of_encodingOfR8 h, ?_⟩⟩
  obtain ⟨hjal, hblt, hbgeu⟩ := h
  refine ⟨fun _ _ => ?_, fun _ _ _ => ?_, fun _ _ _ => ?_⟩
  · rw [tableRow, hjal]; rfl
  · rw [tableRow, hblt]; rfl
  · rw [tableRow, hbgeu]; rfl

/-! ## Illegal words (rules R86 to R88) -/

/-- Settles O8: the front of a step faults with the word at the pc. -/
theorem undefinedWordsRaiseIllegalInstruction : Obligations.UndefinedWordsRaiseIllegalInstruction :=
  fun _ _ hpc ha hd => step_of_decode_error hpc ha hd

/-- A field of a field is a field of the word. -/
theorem extractLsb'_extractLsb' {n : Nat} (w : BitVec n) (a b k l : Nat) (h : k + l ≤ b) :
    (w.extractLsb' a b).extractLsb' k l = w.extractLsb' (a + k) l := by
  ext j hj
  simp [show k + j < b by omega, Nat.add_assoc]

/-- Which bits of funct7 rule R73 reads as `inst[31:26]` and as `shamt[5]`. -/
theorem bits_of_fieldFunct7 {w : Word} {f : BitVec 7} (h : fieldFunct7 w = f) :
    w.extractLsb' 26 6 = f.extractLsb' 1 6 ∧ w.extractLsb' 25 1 = f.extractLsb' 0 1 := by
  rw [← h]
  exact ⟨(extractLsb'_extractLsb' w 25 7 1 6 (by decide)).symm, (extractLsb'_extractLsb' w 25 7 0 1 (by decide)).symm⟩

/-- The only words of SLLI are those with `inst[31:25] = 0000000`. -/
theorem decodeOpImm_of_wrong_left_shift {w : Word} (h3 : fieldFunct3 w = 0b001#3) (h7 : fieldFunct7 w ≠ 0b0000000#7) :
    decodeOpImm w = .error .shiftImmediate := by
  simp [decodeOpImm, h3, h7]

/-- The only words of SRLI and SRAI are those with `inst[31:25]` one of `0000000` and `0100000`. -/
theorem decodeOpImm_of_wrong_right_shift {w : Word} (h3 : fieldFunct3 w = 0b101#3) (h0 : fieldFunct7 w ≠ 0b0000000#7)
    (h1 : fieldFunct7 w ≠ 0b0100000#7) : decodeOpImm w = .error .shiftImmediate := by
  simp [decodeOpImm, h3, h0, h1]

/-- Settles O4: a wrong `inst[31:26]` or a set `inst[25]` is a funct7 that no shift has. -/
theorem wrongShiftImmediatesAreIllegal : Obligations.WrongShiftImmediatesAreIllegal := by
  intro w hop hwrong
  have hbad : decodeOpImm w = .error .shiftImmediate := by
    obtain ⟨h3, hbits⟩ | ⟨h3, hbits⟩ := hwrong
    · refine decodeOpImm_of_wrong_left_shift h3 fun h => ?_
      simp [bits_of_fieldFunct7 h] at hbits
    · refine decodeOpImm_of_wrong_right_shift h3 (fun h => ?_) fun h => ?_ <;>
        simp [bits_of_fieldFunct7 h] at hbits
  have hdecode (c : Config) : decode c w = .error .shiftImmediate := (decode_of_opcodeOpImm c hop).trans hbad
  refine ⟨fun c => ⟨_, hdecode c⟩, fun s hpc ha hw => ?_⟩
  obtain rfl : wordAt s s.pc = w := s.fetchWord_eq_wordAt ▸ hw
  exact step_of_decode_error hpc ha (hdecode s.cfg)

/-! ## Defined words (rules R80, R90) -/

/-- A word that decodes has one of the eight fixed opcodes or `JAL_OPCODE`. -/
theorem fieldOpcode_of_decode_ok {c : Config} {w : Word} {i : Instr} (h : decode c w = .ok i) :
    fieldOpcode w ∈ fixedOpcodes ∨ fieldOpcode w = c.jalOpcode := by
  by_contra! hother
  rw [decode_of_not_mem_fixedOpcodes c hother.1, if_neg hother.2] at h
  cases h

/-- Settles O5: `inst[1:0]` are the low bits of the opcode. -/
theorem onlyNineOpcodesAreDefined : Obligations.OnlyNineOpcodesAreDefined := by
  intro c w i hjal h
  have hlow : w.extractLsb' 0 2 = (w.extractLsb' 0 7).extractLsb' 0 2 :=
    (extractLsb'_extractLsb' w 0 7 0 2 (by decide)).symm
  have hmem := fieldOpcode_of_decode_ok h
  simp only [hjal, fixedOpcodes, fieldOpcode, List.mem_cons, List.not_mem_nil, or_false] at hmem
  rw [hlow]
  rcases hmem with (h | h | h | h | h | h | h | h) | h <;> rw [h] <;> decide

/-- Settles O6, by evaluation of the eleven words. -/
theorem sampleWordsDecode : Obligations.SampleWordsDecode := by
  unfold Obligations.SampleWordsDecode
  decide

end Sys2Proof
end

section
/-! PROOFS. What the statements of 40_build.md to 45_link.md share: the encoding clause from the instruction's row, and the
completion clause from the common end of the instructions that compute a value. -/

namespace Sys2Proof

open Sys2Proof.Machine Sys2Proof.Claims

/-! ## The encoding clause -/

/-- A mask and match that are the instruction's row, in configurations that leave it words of its own, select words that
decode to the instruction with the operands that the word holds. -/
theorem encodesWhen_of_tableRow {kind : Config → Prop} {mask pattern : Word} {build : Word → Instr} (i : Instr)
    (hfree : ∀ c, kind c → c.leavesWordsTo i) (hrow : ∀ c, kind c → tableRow c i = (mask, pattern))
    (hbuild : ∀ w, i.withOperandsOf w = build w) : EncodesWhen kind mask pattern build := by
  intro c w hc hw
  have hmeets : MeetsRow c i w := by rwa [MeetsRow, hrow c hc]
  rw [decode_of_meetsRow (hfree c hc) hmeets, hbuild]

/-- No choice of the encoding parameters takes words from such an instruction. -/
theorem encodes_of_tableRow {mask pattern : Word} {build : Word → Instr} (i : Instr)
    (hfree : ∀ c : Config, c.leavesWordsTo i) (hrow : ∀ c, tableRow c i = (mask, pattern))
    (hbuild : ∀ w, i.withOperandsOf w = build w) : Encodes mask pattern build :=
  encodesWhen_of_tableRow i (fun c _ => hfree c) (fun c _ => hrow c) hbuild

/-! ## The completion clause -/

theorem regsAfterWrite_writeReg (s : State) (rd : RegIdx) (v : Word) : RegsAfterWrite s (s.writeReg rd v) rd v := by
  intro r
  simp [State.readReg_writeReg, State.isZeroReg]

/-- The state in which `writeResult` ends is the write and nothing else. -/
theorem writes_writeReg_advance (s : State) (rd : RegIdx) (v : Word) : Writes s (s.writeReg rd v).advance rd v :=
  ⟨by simp, regsAfterWrite_writeReg s rd v, by simp, by simp⟩

theorem completesWith_of_writeResult {i : Instr} {s : State} {rd : RegIdx} {v : Word} {value : Word → Prop}
    (hexec : exec i s = writeResult rd v s) (hvalue : value v) : CompletesWith i s rd value :=
  ⟨_, v, hexec, hvalue, writes_writeReg_advance s rd v⟩

end Sys2Proof
end

section
/-! PROOFS. The statements of 40_build.md. -/

namespace Sys2Proof

open Sys2Proof.Machine Sys2Proof.Claims

/-- The 20 bits above twelve zeros are the 20 bits times 4096, with no loss (rule R77). -/
theorem toNat_immU (imm : BitVec 20) : (immU imm).toNat = imm.toNat * 4096 := by
  rw [immU, BitVec.toNat_append, BitVec.toNat_ofNat, Nat.zero_mod, Nat.or_zero, Nat.shiftLeft_eq]

/-- Settles O12: the row of LUI, and its value is `immU`. -/
theorem luiLoadsTheUpperBits : Obligations.LuiLoadsTheUpperBits := by
  constructor
  · exact encodes_of_tableRow (.lui 0 0#20) (fun _ => trivial) (fun _ => rfl) fun _ => rfl
  · intro rd imm s
    exact completesWith_of_writeResult rfl (toNat_immU imm)

/-- Settles O13: the row of AUIPC, and its value is the sum of `immU` and the pc before the step, modulo 2^32. -/
theorem auipcAddsToItsOwnPc : Obligations.AuipcAddsToItsOwnPc := by
  constructor
  · exact encodes_of_tableRow (.auipc 0 0#20) (fun _ => trivial) (fun _ => rfl) fun _ => rfl
  · intro rd imm s
    have hsum : (s.pc + immU imm).toNat = (s.pc.toNat + imm.toNat * 4096) % 2 ^ 32 := by
      rw [BitVec.toNat_add, toNat_immU]
    exact completesWith_of_writeResult rfl hsum

end Sys2Proof
end

section
/-! PROOFS. What the statements of 41_arithmetic.md to 44_compare.md share, the encoding clause of the R format; and what the
arithmetic of 41_arithmetic.md computes on words: the two halves of an exact product, and the quotients and remainders with
their corners. -/

namespace Sys2Proof

open Sys2Proof.Machine Sys2Proof.Claims

/-! ## The encoding clause of the R format -/

/-- An instruction of the R format whose row has the R format's mask and the match at hand. -/
theorem encodesR_of_tableRow {pattern : Word} {build : RegIdx → RegIdx → RegIdx → Instr}
    (hfree : ∀ c : Config, c.leavesWordsTo (build 0 0 0)) (hrow : ∀ c, tableRow c (build 0 0 0) = (0xFE00707F#32, pattern))
    (hbuild : ∀ w, (build 0 0 0).withOperandsOf w = build (fieldRd w) (fieldRs1 w) (fieldRs2 w)) :
    EncodesR pattern build :=
  encodes_of_tableRow (build 0 0 0) hfree hrow hbuild

/-! ## Sums (rule R111) -/

/-- The immediate is extended by its sign and added modulo 2^32. -/
theorem toNat_add_immI (a : Word) (imm : BitVec 12) : ((a + immI imm).toNat : Int) = (a.toNat + imm.toInt) % 2 ^ 32 := by
  have himm : immI imm = BitVec.ofInt 32 imm.toInt := rfl
  rw [himm, BitVec.toNat_add, BitVec.toNat_ofInt]
  omega

/-! ## Products (rules R113 to R116) -/

/-- The low half of an integer as a number below 2^32. -/
theorem toNat_ofInt_low (p : Int) : ((BitVec.ofInt 32 p).toNat : Int) = p % 2 ^ 32 := by
  rw [BitVec.toNat_ofInt]
  omega

/-- The upper half of an integer is the floor of its quotient by 2^32, modulo 2^32. -/
theorem toNat_upperHalf (p : Int) : ((upperHalf p).toNat : Int) = p / 2 ^ 32 % 2 ^ 32 := by
  rw [upperHalf, BitVec.extractLsb'_toNat, BitVec.toNat_ofInt, Nat.shiftRight_eq_div_pow]
  omega

/-- The two halves of an integer make its 64 bits. -/
theorem upperHalf_append_low (p : Int) : upperHalf p ++ BitVec.ofInt 32 p = BitVec.ofInt 64 p := by
  have hhigh := toNat_upperHalf p
  have hlow := toNat_ofInt_low p
  apply BitVec.eq_of_toNat_eq
  rw [BitVec.toNat_append, ← Nat.shiftLeft_add_eq_or_of_lt (BitVec.isLt _), Nat.shiftLeft_eq,
    BitVec.toNat_ofInt (n := 64)]
  omega

theorem ofInt_toNat (a : Word) : BitVec.ofInt 32 a.toNat = a := by
  rw [BitVec.ofInt_natCast, BitVec.ofNat_toNat, BitVec.setWidth_eq]

/-- The MUL result is the product of the words, and so the low half of the product of any two readings of them. -/
theorem ofNat_mul_toNat (a b : Word) : BitVec.ofNat 32 (a.toNat * b.toNat) = a * b := by
  rw [BitVec.ofNat_mul, BitVec.ofNat_toNat, BitVec.ofNat_toNat, BitVec.setWidth_eq, BitVec.setWidth_eq]

theorem ofInt_mul_of_readings {a b : Word} {x y : Int} (hx : BitVec.ofInt 32 x = a) (hy : BitVec.ofInt 32 y = b) :
    BitVec.ofInt 32 (x * y) = a * b := by
  rw [BitVec.ofInt_mul, hx, hy]

/-- The upper half of the product of two readings, above the MUL result, is that product in 64 bits. -/
theorem upperHalf_append_mul {a b : Word} {x y : Int} (hx : BitVec.ofInt 32 x = a) (hy : BitVec.ofInt 32 y = b) :
    upperHalf (x * y) ++ a * b = BitVec.ofInt 64 (x * y) := by
  rw [← ofInt_mul_of_readings hx hy, upperHalf_append_low]

theorem toNat_mul_toNat_lt (a b : Word) : a.toNat * b.toNat < 2 ^ 64 :=
  calc a.toNat * b.toNat < 2 ^ 32 * 2 ^ 32 := Nat.mul_lt_mul'' a.isLt b.isLt
    _ = 2 ^ 64 := by norm_num

/-- A product of a signed and an unsigned operand fits 64 bits in two's complement. -/
theorem toInt_mul_toNat_bounds (a b : Word) :
    -2 ^ 63 ≤ a.toInt * (b.toNat : Int) ∧ a.toInt * (b.toNat : Int) < 2 ^ 63 := by
  have ha := BitVec.le_toInt a
  have ha' := BitVec.toInt_lt (x := a)
  have hb := b.isLt
  have hge : 0 ≤ (a.toInt + 2 ^ 31) * (b.toNat : Int) := mul_nonneg (by omega) (Int.natCast_nonneg _)
  have hle : 0 ≤ (2 ^ 31 - a.toInt) * (b.toNat : Int) := mul_nonneg (by omega) (Int.natCast_nonneg _)
  rw [add_mul] at hge
  rw [sub_mul] at hle
  omega

/-! ## Quotients and remainders (rules R117 to R121) -/

theorem toInt_eq_zero_iff (a : Word) : a.toInt = 0 ↔ a = 0#32 := BitVec.toInt_inj (y := 0#32)

theorem toNat_eq_zero_iff (a : Word) : a.toNat = 0 ↔ a = 0#32 := BitVec.toNat_inj (y := 0#32)

theorem isSignedOverflow_iff (a b : Word) : isSignedOverflow a b = true ↔ Overflows a b := by
  have hmin : a.toInt = -2147483648 ↔ a = 0x80000000#32 := BitVec.toInt_inj (y := 0x80000000#32)
  have hneg : b.toInt = -1 ↔ b = 0xFFFFFFFF#32 := BitVec.toInt_inj (y := 0xFFFFFFFF#32)
  rw [isSignedOverflow, Bool.and_eq_true, decide_eq_true_eq, decide_eq_true_eq, hmin, hneg, Overflows]

/-- The truncated quotient of two integers by their signs and absolute values (rule R117). -/
theorem towardZero_eq_tdiv (a b : Int) : towardZero a b = a.tdiv b := by
  rw [towardZero, ← Int.sign_mul_natAbs (a.tdiv b), Int.natAbs_tdiv, Int.sign_tdiv]
  split
  case isTrue hlt => rw [Nat.div_eq_of_lt hlt, Int.ofNat_zero, mul_zero, zero_mul]
  case isFalse => rfl

theorem ofInt_tdiv (a b : Word) : BitVec.ofInt 32 (a.toInt.tdiv b.toInt) = a.sdiv b := by
  apply BitVec.eq_of_toInt_eq
  rw [BitVec.toInt_ofInt, BitVec.toInt_sdiv]

theorem ofInt_tmod (a b : Word) : BitVec.ofInt 32 (a.toInt.tmod b.toInt) = a.srem b := by
  rw [← BitVec.toInt_srem, BitVec.ofInt_toInt]

section Corners

variable (c : DivCorners) (a : Word) {b : Word}

theorem signedQuotient_by_zero : signedQuotient c a 0#32 = divByZero c a := rfl

theorem signedRemainder_by_zero : signedRemainder c a 0#32 = remByZero c a := rfl

theorem unsignedQuotient_by_zero : unsignedQuotient c a 0#32 = divuByZero c a := rfl

theorem unsignedRemainder_by_zero : unsignedRemainder c a 0#32 = remuByZero c a := rfl

variable {a}

theorem signedQuotient_of_overflows (h : Overflows a b) : signedQuotient c a b = divOverflow c := by
  obtain ⟨rfl, rfl⟩ := h
  rfl

theorem signedRemainder_of_overflows (h : Overflows a b) : signedRemainder c a b = remOverflow c := by
  obtain ⟨rfl, rfl⟩ := h
  rfl

/-- Outside the corners DIV is the signed division of the words. -/
theorem signedQuotient_eq_sdiv (hb : b ≠ 0#32) (ho : ¬ Overflows a b) : signedQuotient c a b = a.sdiv b := by
  rw [signedQuotient, if_neg (mt (toInt_eq_zero_iff b).1 hb), if_neg (mt (isSignedOverflow_iff a b).1 ho), ofInt_tdiv]

/-- Outside the corners REM is the signed remainder of the words. -/
theorem signedRemainder_eq_srem (hb : b ≠ 0#32) (ho : ¬ Overflows a b) : signedRemainder c a b = a.srem b := by
  rw [signedRemainder, if_neg (mt (toInt_eq_zero_iff b).1 hb), if_neg (mt (isSignedOverflow_iff a b).1 ho),
    ← Int.tmod_def, ofInt_tmod]

variable (a)

/-- Outside its corner DIVU is the unsigned division of the words. -/
theorem unsignedQuotient_eq_udiv (hb : b ≠ 0#32) : unsignedQuotient c a b = a / b := by
  rw [unsignedQuotient, if_neg (mt (toNat_eq_zero_iff b).1 hb), ← BitVec.toNat_udiv, BitVec.ofNat_toNat, BitVec.setWidth_eq]

/-- Outside its corner REMU is the unsigned remainder of the words. -/
theorem unsignedRemainder_eq_umod (hb : b ≠ 0#32) : unsignedRemainder c a b = a % b := by
  rw [unsignedRemainder, if_neg (mt (toNat_eq_zero_iff b).1 hb), ← Nat.mod_eq_sub_mul_div, ← BitVec.toNat_umod,
    BitVec.ofNat_toNat, BitVec.setWidth_eq]

end Corners

/-- The signed quotient fits 32 bits outside the overflow corner. -/
theorem toInt_sdiv_of_not_overflows {a b : Word} (ho : ¬ Overflows a b) :
    (a.sdiv b).toInt = towardZero a.toInt b.toInt := by
  rw [towardZero_eq_tdiv, BitVec.toInt_sdiv_of_ne_or_ne]
  exact not_and_or.1 ho

theorem toInt_srem_eq (a b : Word) : (a.srem b).toInt = a.toInt - b.toInt * towardZero a.toInt b.toInt := by
  rw [BitVec.toInt_srem, towardZero_eq_tdiv, Int.tmod_def]

theorem natAbs_toInt_srem_lt (a : Word) {b : Word} (hb : b ≠ 0#32) : (a.srem b).toInt.natAbs < b.toInt.natAbs := by
  rw [BitVec.toInt_srem, Int.natAbs_tmod]
  exact Nat.mod_lt _ (Int.natAbs_pos.2 (mt (toInt_eq_zero_iff b).1 hb))

theorem sign_toInt_srem (a b : Word) : (a.srem b).toInt = 0 ∨ (a.srem b).toInt.sign = a.toInt.sign := by
  rw [BitVec.toInt_srem]
  by_cases hdvd : b.toInt ∣ a.toInt
  · exact .inl (Int.tmod_eq_zero_of_dvd hdvd)
  · exact .inr (by rw [Int.sign_tmod, if_neg hdvd])

theorem sdiv_mul_add_srem (a b : Word) : a.sdiv b * b + a.srem b = a := by
  have hmul : BitVec.ofInt 32 (a.toInt.tdiv b.toInt * b.toInt) = a.sdiv b * b :=
    ofInt_mul_of_readings (ofInt_tdiv a b) BitVec.ofInt_toInt
  rw [← hmul, ← ofInt_tmod, ← BitVec.ofInt_add, Int.tdiv_mul_add_tmod, BitVec.ofInt_toInt]

theorem udiv_mul_add_umod (a b : Word) : a / b * b + a % b = a := by
  apply BitVec.eq_of_toNat_eq
  rw [BitVec.toNat_add, BitVec.toNat_mul, BitVec.toNat_udiv, BitVec.toNat_umod, Nat.mod_add_mod, Nat.div_add_mod',
    Nat.mod_eq_of_lt a.isLt]

/-- Rule R122 for the signed pair: the three cases of the division. -/
theorem signedQuotient_mul_add_signedRemainder {c : DivCorners} {a b : Word}
    (h : c = .standard ∨ b ≠ 0#32 ∧ ¬ Overflows a b) : signedQuotient c a b * b + signedRemainder c a b = a := by
  by_cases hregular : b ≠ 0#32 ∧ ¬ Overflows a b
  · obtain ⟨hb, ho⟩ := hregular
    rw [signedQuotient_eq_sdiv c hb ho, signedRemainder_eq_srem c hb ho, sdiv_mul_add_srem]
  · obtain rfl := h.resolve_right hregular
    by_cases hb : b = 0#32
    · subst hb
      rw [BitVec.mul_zero, BitVec.zero_add, signedRemainder_by_zero, remByZero]
    · have ho : Overflows a b := by_contra fun ho => hregular ⟨hb, ho⟩
      obtain ⟨rfl, rfl⟩ := ho
      decide

/-- Rule R122 for the unsigned pair. -/
theorem unsignedQuotient_mul_add_unsignedRemainder {c : DivCorners} (a : Word) {b : Word}
    (h : c = .standard ∨ b ≠ 0#32) : unsignedQuotient c a b * b + unsignedRemainder c a b = a := by
  by_cases hb : b = 0#32
  · obtain rfl := h.resolve_right (not_not.2 hb)
    subst hb
    rw [BitVec.mul_zero, BitVec.zero_add, unsignedRemainder_by_zero, remuByZero]
  · rw [unsignedQuotient_eq_udiv c a hb, unsignedRemainder_eq_umod c a hb, udiv_mul_add_umod]

end Sys2Proof
end

section
/-! PROOFS. The statements of 41_arithmetic.md. -/

namespace Sys2Proof

open Sys2Proof.Machine Sys2Proof.Claims

/-- Settles O14: the row of ADD, and the sum of two words is the sum of their values modulo 2^32. -/
theorem addWraps : Obligations.AddWraps := by
  constructor
  · exact encodesR_of_tableRow (fun _ => trivial) (fun _ => rfl) fun _ => rfl
  · intro rd rs1 rs2 s
    exact completesWith_of_writeResult rfl (BitVec.toNat_add ..)

/-- Settles O15: the row of ADDI, and the immediate counts with its sign. -/
theorem addiAddsTheSignedImmediate : Obligations.AddiAddsTheSignedImmediate := by
  constructor
  · exact encodes_of_tableRow (.addi 0 0 0#12) (fun _ => trivial) (fun _ => rfl) fun _ => rfl
  · intro rd rs1 imm s
    exact completesWith_of_writeResult rfl (toNat_add_immI _ imm)

/-- Settles O16: the row of SUB, and the difference of two words is that of their values modulo 2^32. -/
theorem subWraps : Obligations.SubWraps := by
  constructor
  · exact encodesR_of_tableRow (fun _ => trivial) (fun _ => rfl) fun _ => rfl
  · intro rd rs1 rs2 s
    refine completesWith_of_writeResult rfl ?_
    rw [BitVec.toNat_sub]
    omega

/-- Settles O17: the row of MUL, and the words' product is the low half of the product of either reading. -/
theorem mulKeepsTheLowHalf : Obligations.MulKeepsTheLowHalf := by
  constructor
  · exact encodesR_of_tableRow (fun _ => trivial) (fun _ => rfl) fun _ => rfl
  · intro rd rs1 rs2 s
    refine completesWith_of_writeResult rfl ⟨BitVec.toNat_ofNat .., ?_⟩
    rw [ofNat_mul_toNat, ← ofInt_mul_of_readings BitVec.ofInt_toInt BitVec.ofInt_toInt, toNat_ofInt_low]

/-- Settles O18: the row of MULH, and the upper half of the signed product. -/
theorem mulhIsTheSignedUpperHalf : Obligations.MulhIsTheSignedUpperHalf := by
  constructor
  · exact encodesR_of_tableRow (fun _ => trivial) (fun _ => rfl) fun _ => rfl
  · intro rd rs1 rs2 s
    exact completesWith_of_writeResult rfl (toNat_upperHalf _)

/-- Settles O19: the row of MULHSU, and the upper half of the mixed product. -/
theorem mulhsuIsTheMixedUpperHalf : Obligations.MulhsuIsTheMixedUpperHalf := by
  constructor
  · exact encodesR_of_tableRow (fun _ => trivial) (fun _ => rfl) fun _ => rfl
  · intro rd rs1 rs2 s
    exact completesWith_of_writeResult rfl (toNat_upperHalf _)

/-- Settles O20: the row of MULHU, and the upper half of the unsigned product, which is below 2^64. -/
theorem mulhuIsTheUnsignedUpperHalf : Obligations.MulhuIsTheUnsignedUpperHalf := by
  constructor
  · exact encodesR_of_tableRow (fun _ => trivial) (fun _ => rfl) fun _ => rfl
  · intro rd rs1 rs2 s
    refine completesWith_of_writeResult rfl ?_
    have hhigh := toNat_upperHalf ((s.readReg rs1).toNat * (s.readReg rs2).toNat)
    have hlt := toNat_mul_toNat_lt (s.readReg rs1) (s.readReg rs2)
    omega

/-- Settles O21: the row of DIV, and one equation of the signed quotient for each clause. -/
theorem divRoundsTowardZero : Obligations.DivRoundsTowardZero := by
  constructor
  · exact encodesR_of_tableRow (fun _ => trivial) (fun _ => rfl) fun _ => rfl
  · intro rd rs1 rs2 s
    refine completesWith_of_writeResult rfl ⟨fun hb => ?_, signedQuotient_of_overflows _, fun hb ho => ?_⟩
    · rw [hb, signedQuotient_by_zero]
    · rw [signedQuotient_eq_sdiv _ hb ho, toInt_sdiv_of_not_overflows ho]

/-- Settles O22: the row of DIVU, and one equation of the unsigned quotient for each clause. -/
theorem divuRoundsDown : Obligations.DivuRoundsDown := by
  constructor
  · exact encodesR_of_tableRow (fun _ => trivial) (fun _ => rfl) fun _ => rfl
  · intro rd rs1 rs2 s
    refine completesWith_of_writeResult rfl ⟨fun hb => ?_, fun hb => ?_⟩
    · rw [hb, unsignedQuotient_by_zero]
    · rw [unsignedQuotient_eq_udiv _ _ hb, BitVec.toNat_udiv]

/-- Settles O23: the row of REM, and one equation of the signed remainder for each clause; its sign and its bound are those
of the remainder of the truncated division. -/
theorem remHasTheSignOfTheDividend : Obligations.RemHasTheSignOfTheDividend := by
  constructor
  · exact encodesR_of_tableRow (fun _ => trivial) (fun _ => rfl) fun _ => rfl
  · intro rd rs1 rs2 s
    refine completesWith_of_writeResult rfl ⟨fun hb => ?_, signedRemainder_of_overflows _, fun hb ho => ?_⟩
    · rw [hb, signedRemainder_by_zero]
    · rw [signedRemainder_eq_srem _ hb ho]
      exact ⟨toInt_srem_eq .., natAbs_toInt_srem_lt _ hb, sign_toInt_srem ..⟩

/-- Settles O24: the row of REMU, and one equation of the unsigned remainder for each clause. -/
theorem remuIsBelowTheDivisor : Obligations.RemuIsBelowTheDivisor := by
  constructor
  · exact encodesR_of_tableRow (fun _ => trivial) (fun _ => rfl) fun _ => rfl
  · intro rd rs1 rs2 s
    refine completesWith_of_writeResult rfl ⟨fun hb => ?_, fun hb => ?_⟩
    · rw [hb, unsignedRemainder_by_zero]
    · rw [unsignedRemainder_eq_umod _ _ hb, BitVec.toNat_umod]
      exact ⟨rfl, Nat.mod_lt _ (Nat.pos_of_ne_zero (mt (toNat_eq_zero_iff _).1 hb))⟩

/-- Settles O25: the corner equations, with the default value of each corner function. -/
theorem divisionCornersHaveTheirDefaults : Obligations.DivisionCornersHaveTheirDefaults := by
  intro rd rs1 rs2 s hc
  refine ⟨fun hb => ⟨?_, ?_, ?_, ?_⟩, fun ho => ⟨?_, ?_⟩⟩ <;> refine completesWith_of_writeResult rfl ?_ <;> rw [hc]
  · rw [hb, signedQuotient_by_zero, divByZero]
  · rw [hb, unsignedQuotient_by_zero, divuByZero]
  · rw [hb, signedRemainder_by_zero, remByZero]
  · rw [hb, unsignedRemainder_by_zero, remuByZero]
  · rw [signedQuotient_of_overflows _ ho, divOverflow]
  · rw [signedRemainder_of_overflows _ ho, remOverflow]

/-- Settles O26: the halves make the 64 bits of each product, and each product fits them. -/
theorem upperAndLowerHalvesMakeTheProduct : Obligations.UpperAndLowerHalvesMakeTheProduct := by
  intro rd rs1 rs2 s
  refine ⟨_, _, _, _, completesWith_of_writeResult rfl rfl, completesWith_of_writeResult rfl rfl,
    completesWith_of_writeResult rfl rfl, completesWith_of_writeResult rfl rfl, ?_, ?_, ?_⟩ <;> rw [ofNat_mul_toNat]
  · have hge := BitVec.le_toInt_mul_toInt (x := s.readReg rs1) (y := s.readReg rs2)
    have hle := BitVec.toInt_mul_toInt_le (x := s.readReg rs1) (y := s.readReg rs2)
    rw [upperHalf_append_mul BitVec.ofInt_toInt BitVec.ofInt_toInt,
      BitVec.toInt_ofInt_eq_self (by decide) (by omega) (by omega)]
  · obtain ⟨hge, hlt⟩ := toInt_mul_toNat_bounds (s.readReg rs1) (s.readReg rs2)
    rw [upperHalf_append_mul BitVec.ofInt_toInt (ofInt_toNat _), BitVec.toInt_ofInt_eq_self (by decide) hge hlt]
  · rw [upperHalf_append_mul (ofInt_toNat _) (ofInt_toNat _), ← Int.natCast_mul, BitVec.ofInt_natCast, BitVec.toNat_ofNat,
      Nat.mod_eq_of_lt (toNat_mul_toNat_lt ..)]

/-- Settles O27: the law of each pair, with the values that the four instructions write. -/
theorem quotientTimesDivisorPlusRemainder : Obligations.QuotientTimesDivisorPlusRemainder := by
  intro rd rs1 rs2 s
  exact ⟨_, _, _, _, completesWith_of_writeResult rfl rfl, completesWith_of_writeResult rfl rfl,
    completesWith_of_writeResult rfl rfl, completesWith_of_writeResult rfl rfl,
    signedQuotient_mul_add_signedRemainder, unsignedQuotient_mul_add_unsignedRemainder _⟩

end Sys2Proof
end

section
/-! PROOFS. The statements of 42_logical.md, with what they share: the encoding clause of the I format, and the bits of the
sign-extended immediate. -/

namespace Sys2Proof

open Sys2Proof.Machine Sys2Proof.Claims

/-- An instruction of the I format whose row has the I format's mask and the match at hand. -/
theorem encodesI_of_tableRow {pattern : Word} {build : RegIdx → RegIdx → BitVec 12 → Instr}
    (hfree : ∀ c : Config, c.leavesWordsTo (build 0 0 0)) (hrow : ∀ c, tableRow c (build 0 0 0) = (0x0000707F#32, pattern))
    (hbuild : ∀ w, (build 0 0 0).withOperandsOf w = build (fieldRd w) (fieldRs1 w) (fieldImmI w)) :
    EncodesI pattern build :=
  encodes_of_tableRow (build 0 0 0) hfree hrow hbuild

/-- Below bit 12 the extended immediate has the immediate's own bits, from there on its bit 11 (rule R74). -/
theorem getLsbD_immI (imm : BitVec 12) {k : Nat} (hk : k < 32) : (immI imm).getLsbD k = imm.getLsbD (min k 11) := by
  rw [immI, BitVec.getLsbD_signExtend, decide_eq_true hk, Bool.true_and]
  split
  next hlow => rw [Nat.min_eq_left (by omega)]
  next hhigh => rw [Nat.min_eq_right (by omega), BitVec.msb_eq_getLsbD_last]

/-- Settles O28: the rows of XOR, OR and AND, and bit `k` of each operation on words. -/
theorem logicalRegisterFormsAreBitwise : Obligations.LogicalRegisterFormsAreBitwise := by
  refine ⟨?xorRow, ?orRow, ?andRow, fun rd rs1 rs2 s => ⟨?xor, ?or, ?and⟩⟩
  case xorRow | orRow | andRow => exact encodesR_of_tableRow (fun _ => trivial) (fun _ => rfl) fun _ => rfl
  case xor => exact completesWith_of_writeResult rfl fun _ _ => BitVec.getLsbD_xor
  case or => exact completesWith_of_writeResult rfl fun _ _ => BitVec.getLsbD_or
  case and => exact completesWith_of_writeResult rfl fun _ _ => BitVec.getLsbD_and

/-- Settles O29: the rows of XORI, ORI and ANDI, and bit `k` of each operation on a word and the extended immediate. -/
theorem logicalImmediateFormsSignExtend : Obligations.LogicalImmediateFormsSignExtend := by
  refine ⟨?xoriRow, ?oriRow, ?andiRow, fun rd rs1 imm s => ⟨?xori, ?ori, ?andi⟩⟩
  case xoriRow | oriRow | andiRow => exact encodesI_of_tableRow (fun _ => trivial) (fun _ => rfl) fun _ => rfl
  case xori => exact completesWith_of_writeResult rfl fun k hk => by rw [BitVec.getLsbD_xor, getLsbD_immI imm hk]
  case ori => exact completesWith_of_writeResult rfl fun k hk => by rw [BitVec.getLsbD_or, getLsbD_immI imm hk]
  case andi => exact completesWith_of_writeResult rfl fun k hk => by rw [BitVec.getLsbD_and, getLsbD_immI imm hk]

end Sys2Proof
end

section
/-! PROOFS. The statements of 43_shift.md, with what they share: the encoding clause of the shift sub-format, and each shift
of a word as an operation with a power of two. -/

namespace Sys2Proof

open Sys2Proof.Machine Sys2Proof.Claims

/-- An instruction of the shift sub-format whose row has its mask, the whole of `inst[31:25]` included, and the match at
hand. -/
theorem encodesShift_of_tableRow {pattern : Word} {build : RegIdx → RegIdx → BitVec 5 → Instr}
    (hfree : ∀ c : Config, c.leavesWordsTo (build 0 0 0)) (hrow : ∀ c, tableRow c (build 0 0 0) = (0xFE00707F#32, pattern))
    (hbuild : ∀ w, (build 0 0 0).withOperandsOf w = build (fieldRd w) (fieldRs1 w) (fieldShamt w)) :
    EncodesShift pattern build :=
  encodes_of_tableRow (build 0 0 0) hfree hrow hbuild

/-- The five low bits of a word are its value modulo 2^5. -/
theorem shiftAmount_eq_mod (a : Word) : shiftAmount a = a.toNat % 32 := by
  rw [shiftAmount, BitVec.extractLsb'_toNat, Nat.shiftRight_zero]

theorem toNat_shiftLeft_eq_mul (a : Word) (n : Nat) : (a <<< n).toNat = a.toNat * 2 ^ n % 2 ^ 32 := by
  rw [BitVec.toNat_shiftLeft, Nat.shiftLeft_eq]

theorem toNat_ushiftRight_eq_div (a : Word) (n : Nat) : (a >>> n).toNat = a.toNat / 2 ^ n := by
  rw [BitVec.toNat_ushiftRight, Nat.shiftRight_eq_div_pow]

/-- Copies of the sign bit make the quotient round down, for negative words too. -/
theorem toInt_sshiftRight_eq_div (a : Word) (n : Nat) : (a.sshiftRight n).toInt = a.toInt / 2 ^ n := by
  rw [BitVec.toInt_sshiftRight, Int.shiftRight_eq_div_pow, Nat.cast_pow, Nat.cast_ofNat]

/-- Settles O30: the rows of SLL, SRL and SRA, and each shift by the value of the five low bits of `x[rs2]`. -/
theorem registerShiftsUseFiveBits : Obligations.RegisterShiftsUseFiveBits := by
  refine ⟨?sllRow, ?srlRow, ?sraRow, fun rd rs1 rs2 s => ?shifts⟩
  case sllRow | srlRow | sraRow => exact encodesR_of_tableRow (fun _ => trivial) (fun _ => rfl) fun _ => rfl
  case shifts =>
    rw [← shiftAmount_eq_mod]
    refine ⟨?sll, ?srl, ?sra⟩
    case sll => exact completesWith_of_writeResult rfl (toNat_shiftLeft_eq_mul ..)
    case srl => exact completesWith_of_writeResult rfl (toNat_ushiftRight_eq_div ..)
    case sra => exact completesWith_of_writeResult rfl (toInt_sshiftRight_eq_div ..)

/-- Settles O31: the rows of SLLI, SRLI and SRAI, and each shift by the value of `shamt5`. -/
theorem immediateShiftsUseShamt : Obligations.ImmediateShiftsUseShamt := by
  refine ⟨?slliRow, ?srliRow, ?sraiRow, fun rd rs1 shamt s => ⟨?slli, ?srli, ?srai⟩⟩
  case slliRow | srliRow | sraiRow => exact encodesShift_of_tableRow (fun _ => trivial) (fun _ => rfl) fun _ => rfl
  case slli => exact completesWith_of_writeResult rfl (toNat_shiftLeft_eq_mul ..)
  case srli => exact completesWith_of_writeResult rfl (toNat_ushiftRight_eq_div ..)
  case srai => exact completesWith_of_writeResult rfl (toInt_sshiftRight_eq_div ..)

end Sys2Proof
end

section
/-! PROOFS. The statements of 44_compare.md, with what they share: a truth value as 1 or 0, and the two readings of the
sign-extended immediate. -/

namespace Sys2Proof

open Sys2Proof.Machine Sys2Proof.Claims

/-- A computed condition becomes 1 where what it decides holds, and 0 elsewhere. -/
theorem toNat_bool32 {b : Bool} {p : Prop} [Decidable p] (h : b = true ↔ p) :
    (bool32 b).toNat = if p then 1 else 0 := by
  by_cases hp : p
  · rw [if_pos hp, bool32, if_pos (h.2 hp), BitVec.toNat_ofNat]
  · rw [if_neg hp, bool32, if_neg (mt h.1 hp), BitVec.toNat_ofNat]

/-- Extended by its sign, the immediate keeps its signed value (rule R74). -/
theorem toInt_immI (imm : BitVec 12) : (immI imm).toInt = imm.toInt :=
  BitVec.toInt_signExtend_of_le (by decide)

/-- Read as unsigned, the extended immediate is its signed value modulo 2^32 (rule R74). -/
theorem toNat_immI (imm : BitVec 12) : ((immI imm).toNat : Int) = imm.toInt % 2 ^ 32 :=
  toNat_ofInt_low imm.toInt

/-- SLTI's condition compares with the immediate's own signed value. -/
theorem condLtS_immI_iff (a : Word) (imm : BitVec 12) : condLtS a (immI imm) = true ↔ a.toInt < imm.toInt := by
  rw [condLtS_iff, toInt_immI]

/-- SLTIU's condition compares with the immediate extended first, so a negative one counts as a large number. -/
theorem condLtU_immI_iff (a : Word) (imm : BitVec 12) :
    condLtU a (immI imm) = true ↔ (a.toNat : Int) < imm.toInt % 2 ^ 32 := by
  rw [condLtU_iff, ← toNat_immI, Int.ofNat_lt]

/-- Settles O32: the rows of SLT and SLTU, and what the condition of each decides. -/
theorem registerComparesGiveOneOrZero : Obligations.RegisterComparesGiveOneOrZero := by
  refine ⟨?sltRow, ?sltuRow, fun rd rs1 rs2 s => ⟨?slt, ?sltu⟩⟩
  case sltRow | sltuRow => exact encodesR_of_tableRow (fun _ => trivial) (fun _ => rfl) fun _ => rfl
  case slt => exact completesWith_of_writeResult rfl (toNat_bool32 (condLtS_iff _ _))
  case sltu => exact completesWith_of_writeResult rfl (toNat_bool32 (condLtU_iff _ _))

/-- Settles O33: the rows of SLTI and SLTIU, and what the condition of each decides about the immediate. -/
theorem immediateComparesSignExtend : Obligations.ImmediateComparesSignExtend := by
  refine ⟨?sltiRow, ?sltiuRow, fun rd rs1 imm s => ⟨?slti, ?sltiu⟩⟩
  case sltiRow | sltiuRow => exact encodesI_of_tableRow (fun _ => trivial) (fun _ => rfl) fun _ => rfl
  case slti => exact completesWith_of_writeResult rfl (toNat_bool32 (condLtS_immI_iff _ imm))
  case sltiu => exact completesWith_of_writeResult rfl (toNat_bool32 (condLtU_immI_iff _ imm))

end Sys2Proof
end

section
/-! PROOFS. The statements of 45_link.md, with what they share: the two outcomes of a jump that links, and the value of a
JALR's target. -/

namespace Sys2Proof

open Sys2Proof.Machine Sys2Proof.Claims

/-- The target's alignment alone decides between the link with the jump and the fault (rules R47, R160, R161). -/
theorem linksOrFaults_of_jumpTo {i : Instr} {s : State} {rd : RegIdx} {target : Word}
    (hexec : exec i s = jumpTo target (s.writeReg rd (s.pc + 4#32))) :
    (target.toNat % 4 = 0 → LinksAndGoesTo i s rd target) ∧
      (target.toNat % 4 ≠ 0 → exec i s = .fault (.misalignedFetch target)) := by
  obtain ⟨haligned, hjump⟩ | ⟨hmisaligned, hjump⟩ := jumpTo_cases target (s.writeReg rd (s.pc + 4#32))
  · exact ⟨fun _ => ⟨_, hexec.trans hjump, rfl, regsAfterWrite_writeReg s rd _, by simp, by simp⟩,
      fun h => absurd haligned h⟩
  · exact ⟨fun h => absurd h hmisaligned, fun _ => hexec.trans hjump⟩

/-- To clear bit 0 is to shift it out and a zero back in, so the target is the even number at or below the sum (rule
R161). -/
theorem toNat_jalrTarget (s : State) (rs1 : RegIdx) (imm : BitVec 12) :
    (jalrTarget s rs1 imm).toNat = 2 * ((s.readReg rs1 + immI imm).toNat / 2) := by
  have hshift : jalrTarget s rs1 imm = (s.readReg rs1 + immI imm) >>> 1 <<< 1 := by
    rw [BitVec.shiftLeft_ushiftRight]
    rfl
  rw [hshift, toNat_shiftLeft_eq_mul, toNat_ushiftRight_eq_div]
  omega

/-- Settles O34: the row of JAL under R8's opcode, which no other instruction has, and the two outcomes of its jump. -/
theorem jalLinksAndJumps : Obligations.JalLinksAndJumps := by
  refine ⟨?jalRow, fun rd off s => ?jal⟩
  case jalRow =>
    refine encodesWhen_of_tableRow (.jal 0 0) (fun c hc => ?free) (fun c hc => ?row) fun _ => rfl
    case free =>
      rw [Config.leavesWordsTo, hc]
      decide
    case row =>
      rw [tableRow, hc]
      rfl
  case jal => exact linksOrFaults_of_jumpTo rfl

/-- Settles O35: the row of JALR, and the two outcomes of its jump to the one word that has the target's value. -/
theorem jalrLinksAndJumps : Obligations.JalrLinksAndJumps := by
  refine ⟨?jalrRow, fun rd rs1 imm s target htarget => ?jalr⟩
  case jalrRow => exact encodesI_of_tableRow (fun _ => trivial) (fun _ => rfl) fun _ => rfl
  case jalr =>
    obtain rfl : target = jalrTarget s rs1 imm :=
      BitVec.eq_of_toNat_eq (htarget.trans (toNat_jalrTarget s rs1 imm).symm)
    exact linksOrFaults_of_jumpTo rfl

end Sys2Proof
end

section
/-! PROOFS. The statements of 46_branch.md, with what they share: the encoding clause of the B format, and the outcomes of
a branch by its condition and its target. -/

namespace Sys2Proof

open Sys2Proof.Machine Sys2Proof.Claims

/-! ## The encoding clause of the B format -/

/-- An instruction of the B format whose row has the B format's mask and the match at hand, in configurations that leave
it words of its own. -/
theorem encodesB_of_tableRow {kind : Config → Prop} {pattern : Word} {build : RegIdx → RegIdx → BitVec 13 → Instr}
    (hfree : ∀ c, kind c → c.leavesWordsTo (build 0 0 0))
    (hrow : ∀ c, kind c → tableRow c (build 0 0 0) = (0x0000707F#32, pattern))
    (hbuild : ∀ w, (build 0 0 0).withOperandsOf w = build (fieldRs1 w) (fieldRs2 w) (fieldImmB w)) :
    EncodesB kind pattern build :=
  encodesWhen_of_tableRow (build 0 0 0) hfree hrow hbuild

/-! ## The outcomes of a branch -/

/-- A step that sets the pc and nothing else. -/
theorem goesTo_of_setPc {i : Instr} {s : State} {target : Word} (hexec : exec i s = .next (s.setPc target)) :
    GoesTo i s target :=
  ⟨_, hexec, State.setPc_pc s target, State.setPc_readReg s target, State.setPc_cfg s target,
    State.setPc_byteAt s target⟩

/-- Not taken, a branch goes on to `pc + 4` and never faults; taken, the alignment of the target decides between the jump
and the fault (rule R47). -/
theorem branches_of_branchIf {i : Instr} {s : State} {off : BitVec 13} {cond : Bool} {taken : Prop}
    (hexec : exec i s = branchIf cond off s) (hcond : cond = true ↔ taken) : Branches i s off taken := by
  cases cond with
  | false =>
    have hnot : ¬ taken := fun h => Bool.false_ne_true (hcond.2 h)
    exact ⟨fun _ => goesTo_of_setPc hexec, fun h => absurd h hnot, fun h => absurd h hnot⟩
  | true =>
    have htaken : taken := hcond.1 rfl
    obtain ⟨haligned, hjump⟩ | ⟨hmisaligned, hjump⟩ := jumpTo_cases (s.pc + immB off) s
    · exact ⟨fun h => absurd htaken h, fun _ _ => goesTo_of_setPc (hexec.trans hjump), fun _ h => absurd haligned h⟩
    · exact ⟨fun h => absurd htaken h, fun _ h => absurd h hmisaligned, fun _ _ => hexec.trans hjump⟩

/-- Settles O36: the rows of BEQ and BNE, and what the condition of each decides. -/
theorem equalityBranches : Obligations.EqualityBranches := by
  refine ⟨?beqRow, ?bneRow, fun rs1 rs2 off s => ⟨?beq, ?bne⟩⟩
  case beqRow | bneRow => exact encodesB_of_tableRow (fun _ _ => trivial) (fun _ _ => rfl) fun _ => rfl
  case beq => exact branches_of_branchIf rfl (condEq_iff _ _)
  case bne => exact branches_of_branchIf rfl (condNe_iff _ _)

/-- Settles O37: the row of BLT under R8's funct3, which no other branch has, the row of BGE, and what the condition of
each decides. -/
theorem signedBranches : Obligations.SignedBranches := by
  refine ⟨?bltRow, ?bgeRow, fun rs1 rs2 off s => ⟨?blt, ?bge⟩⟩
  case bltRow =>
    refine encodesB_of_tableRow (fun c hblt => ?free) (fun c hblt => ?row) fun _ => rfl
    case free =>
      rw [Config.leavesWordsTo, hblt]
      decide
    case row =>
      rw [tableRow, hblt]
      rfl
  case bgeRow => exact encodesB_of_tableRow (fun _ _ => trivial) (fun _ _ => rfl) fun _ => rfl
  case blt => exact branches_of_branchIf rfl (condLtS_iff _ _)
  case bge => exact branches_of_branchIf rfl (condGeS_iff _ _)

/-- Settles O38: the row of BLTU, the row of BGEU under R8's funct3, which BLT does not have beside it, and what the
condition of each decides. -/
theorem unsignedBranches : Obligations.UnsignedBranches := by
  refine ⟨?bltuRow, ?bgeuRow, fun rs1 rs2 off s => ⟨?bltu, ?bgeu⟩⟩
  case bltuRow => exact encodesB_of_tableRow (fun _ _ => trivial) (fun _ _ => rfl) fun _ => rfl
  case bgeuRow =>
    refine encodesB_of_tableRow ?free ?row fun _ => rfl
    case free =>
      rintro c ⟨hblt, hbgeu⟩
      rw [Config.leavesWordsTo, hblt, hbgeu]
      decide
    case row =>
      rintro c ⟨-, hbgeu⟩
      rw [tableRow, hbgeu]
      rfl
  case bltu => exact branches_of_branchIf rfl (condLtU_iff _ _)
  case bgeu => exact branches_of_branchIf rfl (condGeU_iff _ _)

end Sys2Proof
end

section
/-! PROOFS. The statements of 47_loads.md, with what they share: the outcomes of a load by its checks, and the value it
extends. -/

namespace Sys2Proof

open Sys2Proof.Machine Sys2Proof.Claims

/-! ## The outcomes of a load -/

/-- The check of the alignment is the statements' condition on the address (rule R46). -/
theorem permitted_iff_alignmentOk (s : State) (addr : Word) (w : AccessWidth) :
    Permitted s addr (widthBytes w) ↔ s.alignmentOk addr w = true :=
  (State.alignmentOk_iff s addr w).symm

/-- The alignment decides first, then the admission, and a load that passes both ends with the write (rules R46, R48). -/
theorem loads_of_loadWith {i : Instr} {s : State} {addr : Word} {rd : RegIdx} {v : Word} (w : AccessWidth)
    (hexec : exec i s = loadWith w addr rd v s) : Loads i s addr (widthBytes w) rd v := by
  rw [Loads, permitted_iff_alignmentOk]
  obtain ⟨haligned, hadmitted, hload⟩ | ⟨hmisaligned, hload⟩ | ⟨haligned, habsent, hload⟩ :=
    loadWith_cases w addr rd v s
  · simp [haligned, hadmitted, completesWith_of_writeResult (hexec.trans hload)]
  · simp [hmisaligned, hexec.trans hload]
  · simp [haligned, habsent, hexec.trans hload]

/-! ## The loaded value -/

/-- Zero extension puts zeros above the value (rules R182, R183). -/
theorem zero_append_eq_setWidth {m n : Nat} (x : BitVec n) : 0#m ++ x = x.setWidth (m + n) := by
  apply BitVec.eq_of_toNat_eq
  rw [BitVec.toNat_setWidth_of_le (Nat.le_add_left n m)]
  simp [BitVec.toNat_append]

/-- The halfword of the statements is the model's 2-byte read. -/
theorem halfAt_eq_read16 (s : State) (a : Word) : halfAt s a = s.read16 a := by
  unfold halfAt State.read16
  cases s.cfg.byteOrder <;> rfl

/-- Settles O39: the rows of LB and LBU, and the outcomes of a load of one byte, which is always aligned. -/
theorem byteLoads : Obligations.ByteLoads := by
  refine ⟨?lbRow, ?lbuRow, fun rd rs1 imm s => ⟨rfl, ?lb, ?lbu⟩⟩
  case lbRow | lbuRow => exact encodesI_of_tableRow (fun _ => trivial) (fun _ => rfl) fun _ => rfl
  case lb => exact loads_of_loadWith .byte rfl
  case lbu =>
    rw [zero_append_eq_setWidth]
    exact loads_of_loadWith .byte rfl

/-- Settles O40: the rows of LH and LHU, and the outcomes of a load of two bytes in the configured order. -/
theorem halfwordLoads : Obligations.HalfwordLoads := by
  refine ⟨?lhRow, ?lhuRow, fun rd rs1 imm s => ⟨rfl, ?lh, ?lhu⟩⟩
  case lhRow | lhuRow => exact encodesI_of_tableRow (fun _ => trivial) (fun _ => rfl) fun _ => rfl
  case lh =>
    rw [halfAt_eq_read16]
    exact loads_of_loadWith .half rfl
  case lhu =>
    rw [halfAt_eq_read16, zero_append_eq_setWidth]
    exact loads_of_loadWith .half rfl

/-- Settles O41: the row of LW, and the outcomes of a load of four bytes in the configured order. -/
theorem wordLoads : Obligations.WordLoads := by
  refine ⟨?lwRow, fun rd rs1 imm s => ⟨rfl, ?lw⟩⟩
  case lwRow => exact encodesI_of_tableRow (fun _ => trivial) (fun _ => rfl) fun _ => rfl
  case lw =>
    rw [wordAt_eq_read32]
    exact loads_of_loadWith .word rfl

end Sys2Proof
end

section
/-! PROOFS. The statements of 48_stores.md, with what they share: the encoding clause of the S format, the outcomes of a
store by its checks, and the bytes it leaves. -/

namespace Sys2Proof

open Sys2Proof.Machine Sys2Proof.Claims

/-! ## The encoding clause of the S format -/

/-- An instruction of the S format whose row has the S format's mask and the match at hand. -/
theorem encodesS_of_tableRow {pattern : Word} {build : RegIdx → RegIdx → BitVec 12 → Instr}
    (hfree : ∀ c : Config, c.leavesWordsTo (build 0 0 0)) (hrow : ∀ c, tableRow c (build 0 0 0) = (0x0000707F#32, pattern))
    (hbuild : ∀ w, (build 0 0 0).withOperandsOf w = build (fieldRs1 w) (fieldRs2 w) (fieldImmS w)) :
    EncodesS pattern build :=
  encodes_of_tableRow (build 0 0 0) hfree hrow hbuild

/-! ## The outcomes of a store -/

/-- A memory write changes no register. -/
theorem sameRegs_of_changesOnlyBytes {s u : State} {addr : Word} {n : Nat} (h : ChangesOnlyBytes s addr n u) :
    SameRegs s u := by
  intro r
  simp [State.readReg, State.isZeroReg, h.regs_eq, h.cfg_eq]

/-- The alignment decides first, then the admission, and a store that passes both ends in the written state with its pc
advanced (rules R46, R48). -/
theorem stores_of_storeWith {i : Instr} {s u : State} {addr : Word} {byte : Nat → Byte} (w : AccessWidth)
    (hexec : exec i s = storeWith w addr u s) (hwritten : ChangesOnlyBytes s addr (widthBytes w) u)
    (hbytes : ∀ k, k < widthBytes w → u.byteAt (addr + BitVec.ofNat 32 k) = byte k) :
    Stores i s addr (widthBytes w) byte := by
  rw [Stores, permitted_iff_alignmentOk]
  obtain ⟨haligned, hadmitted, hstore⟩ | ⟨hmisaligned, hstore⟩ | ⟨haligned, habsent, hstore⟩ :=
    storeWith_cases w addr u s
  · have hpc : u.advance.pc = s.pc + 4#32 := by rw [State.advance_pc, hwritten.pc_eq]
    have hregs : SameRegs s u.advance := fun r => sameRegs_of_changesOnlyBytes hwritten r
    exact ⟨fun _ _ => ⟨u.advance, hexec.trans hstore, hpc, hregs, hwritten.cfg_eq, hbytes, hwritten.byteAt_eq⟩,
      fun h => absurd haligned h, fun _ h => absurd (h.symm.trans hadmitted) Bool.false_ne_true⟩
  · simp [hmisaligned, hexec.trans hstore]
  · simp [haligned, habsent, hexec.trans hstore]

/-! ## The stored bytes -/

/-- The one byte of a 1-byte store. -/
theorem byteAt_write8 (s : State) (a : Word) (v : BitVec 8) {k : Nat} (hk : k < 1) :
    (s.write8 a v).byteAt (a + BitVec.ofNat 32 k) = v := by
  obtain rfl : k = 0 := Nat.lt_one_iff.1 hk
  rw [BitVec.add_zero]
  exact State.byteAt_setByte_self s a v

/-- A byte of the stored half of a register is the register's byte of the same index. -/
theorem byteAt_write16_low_half (s : State) (a v : Word) {k : Nat} (hk : k < 2) :
    (s.write16 a (v.extractLsb' 0 16)).byteAt (a + BitVec.ofNat 32 k) = v.extractLsb' (8 * byteIndex s 2 k) 8 := by
  have hindex : byteIndex s 2 k < 2 := by
    unfold byteIndex
    split <;> omega
  calc (s.write16 a (v.extractLsb' 0 16)).byteAt (a + BitVec.ofNat 32 k)
      = (v.extractLsb' 0 16).extractLsb' (8 * byteIndex s 2 k) 8 := State.byteAt_write16 s a _ hk
    _ = v.extractLsb' (8 * byteIndex s 2 k) 8 := by
        rw [extractLsb'_extractLsb' v 0 16 _ 8 (by omega), Nat.zero_add]

/-- The model's choice of a word's byte is the statements'. -/
theorem byteOfWord_eq_byteIndex (s : State) (v : Word) (k : Nat) :
    byteOfWord s.cfg.byteOrder v k = v.extractLsb' (8 * byteIndex s 4 k) 8 := by
  unfold byteOfWord byteIndex
  cases s.cfg.byteOrder <;> rfl

/-- Settles O43: the row of SB, and the outcomes of a store of one byte, which is always aligned. -/
theorem byteStores : Obligations.ByteStores := by
  refine ⟨?sbRow, fun rs1 rs2 imm s => ⟨rfl, ?sb⟩⟩
  case sbRow => exact encodesS_of_tableRow (fun _ => trivial) (fun _ => rfl) fun _ => rfl
  case sb => exact stores_of_storeWith .byte rfl (State.write8_changesOnlyBytes s _ _) fun _ => byteAt_write8 s _ _

/-- Settles O44: the row of SH, and the outcomes of a store of two bytes in the configured order. -/
theorem halfwordStores : Obligations.HalfwordStores := by
  refine ⟨?shRow, fun rs1 rs2 imm s => ⟨rfl, ?sh⟩⟩
  case shRow => exact encodesS_of_tableRow (fun _ => trivial) (fun _ => rfl) fun _ => rfl
  case sh =>
    exact stores_of_storeWith .half rfl (State.write16_changesOnlyBytes s _ _) fun _ => byteAt_write16_low_half s _ _

/-- Settles O45: the row of SW, and the outcomes of a store of four bytes in the configured order. -/
theorem wordStores : Obligations.WordStores := by
  refine ⟨?swRow, fun rs1 rs2 imm s => ⟨rfl, ?sw⟩⟩
  case swRow => exact encodesS_of_tableRow (fun _ => trivial) (fun _ => rfl) fun _ => rfl
  case sw =>
    refine stores_of_storeWith .word rfl (State.write32_changesOnlyBytes s _ _) fun k hk => ?_
    rw [State.byteAt_write32 s _ _ hk, byteOfWord_eq_byteIndex]

end Sys2Proof
end

section
/-! PROOFS. The statements of 60_exceptions.md: all the faults that an instruction raises, said once, and each statement
as the reading of its case. -/

namespace Sys2Proof

open Sys2Proof.Machine Sys2Proof.Claims

/-! ## All that an instruction can raise (rules R202 to R205) -/

/-- The faults that `exec i s` raises, each with what makes it so. -/
inductive Raises (i : Instr) (s : State) : Fault → Prop
  | misalignedFetch {target : Word} (transfers : isJump i ∨ takesBranch i s)
      (target_eq : transferTarget i s = some target) (misaligned : target.toNat % 4 ≠ 0) :
      Raises i s (.misalignedFetch target)
  | misalignedLoad {n : Nat} {addr : Word} (access : loadAccess i s = some (n, addr))
      (misaligned : ¬ Permitted s addr n) : Raises i s (.misalignedLoad addr)
  | misalignedStore {n : Nat} {addr : Word} (access : storeAccess i s = some (n, addr))
      (misaligned : ¬ Permitted s addr n) : Raises i s (.misalignedStore addr)
  | absentLoad {n : Nat} {addr : Word} (access : loadAccess i s = some (n, addr)) (permitted : Permitted s addr n)
      (absent : admits s.cfg addr n .load = false) : Raises i s (.accessFault .load addr)
  | absentStore {n : Nat} {addr : Word} (access : storeAccess i s = some (n, addr)) (permitted : Permitted s addr n)
      (absent : admits s.cfg addr n .store = false) : Raises i s (.accessFault .store addr)

/-- A jump faults on a misaligned target only. -/
theorem jumpTo_fault_iff (target : Word) (u : State) (f : Fault) :
    jumpTo target u = .fault f ↔ target.toNat % 4 ≠ 0 ∧ f = .misalignedFetch target := by
  obtain ⟨haligned, hjump⟩ | ⟨hmisaligned, hjump⟩ := jumpTo_cases target u
  · simp [hjump, haligned]
  · simp [hjump, hmisaligned, eq_comm (a := f)]

/-- A branch faults only where it is taken, as a jump to its target. -/
theorem branchIf_fault_iff (taken : Bool) (off : BitVec 13) (s : State) (f : Fault) :
    branchIf taken off s = .fault f ↔
      taken = true ∧ (s.pc + immB off).toNat % 4 ≠ 0 ∧ f = .misalignedFetch (s.pc + immB off) := by
  cases taken
  · simp [branchIf]
  · simp [branchIf, jumpTo_fault_iff]

/-- A load faults on its alignment, or, that passed, on its admission. -/
theorem loadWith_fault_iff (w : AccessWidth) (addr : Word) (rd : RegIdx) (v : Word) (s : State) (f : Fault) :
    loadWith w addr rd v s = .fault f ↔
      ¬ Permitted s addr (widthBytes w) ∧ f = .misalignedLoad addr ∨
      Permitted s addr (widthBytes w) ∧ admits s.cfg addr (widthBytes w) .load = false ∧
        f = .accessFault .load addr := by
  rw [permitted_iff_alignmentOk]
  obtain ⟨haligned, hadmitted, hload⟩ | ⟨hmisaligned, hload⟩ | ⟨haligned, habsent, hload⟩ :=
    loadWith_cases w addr rd v s
  · simp [hload, writeResult, haligned, hadmitted]
  · simp [hload, hmisaligned, eq_comm (a := f)]
  · simp [hload, haligned, habsent, eq_comm (a := f)]

/-- A store faults on its alignment, or, that passed, on its admission. -/
theorem storeWith_fault_iff (w : AccessWidth) (addr : Word) (u s : State) (f : Fault) :
    storeWith w addr u s = .fault f ↔
      ¬ Permitted s addr (widthBytes w) ∧ f = .misalignedStore addr ∨
      Permitted s addr (widthBytes w) ∧ admits s.cfg addr (widthBytes w) .store = false ∧
        f = .accessFault .store addr := by
  rw [permitted_iff_alignmentOk]
  obtain ⟨haligned, hadmitted, hstore⟩ | ⟨hmisaligned, hstore⟩ | ⟨haligned, habsent, hstore⟩ :=
    storeWith_cases w addr u s
  · simp [hstore, haligned, hadmitted]
  · simp [hstore, hmisaligned, eq_comm (a := f)]
  · simp [hstore, haligned, habsent, eq_comm (a := f)]

/-- An instruction that faults raises one of the listed faults. -/
theorem raises_of_exec_fault {i : Instr} {s : State} {f : Fault} (hf : exec i s = .fault f) : Raises i s f := by
  cases exec_form i s with
  | compute rd v e => simp [e, writeResult] at hf
  | branch taken off e taken_iff target_eq =>
    obtain ⟨htaken, hmisaligned, rfl⟩ := (branchIf_fault_iff taken off s f).1 (e ▸ hf)
    exact .misalignedFetch (.inr (taken_iff.1 htaken)) target_eq hmisaligned
  | jump rd target e is_jump target_eq =>
    obtain ⟨hmisaligned, rfl⟩ := (jumpTo_fault_iff target _ f).1 (e ▸ hf)
    exact .misalignedFetch (.inl is_jump) target_eq hmisaligned
  | load w addr rd v e _ load_eq =>
    obtain ⟨hmisaligned, rfl⟩ | ⟨hpermitted, habsent, rfl⟩ := (loadWith_fault_iff w addr rd v s f).1 (e ▸ hf)
    · exact .misalignedLoad load_eq hmisaligned
    · exact .absentLoad load_eq hpermitted habsent
  | store w addr u e _ _ _ store_eq =>
    obtain ⟨hmisaligned, rfl⟩ | ⟨hpermitted, habsent, rfl⟩ := (storeWith_fault_iff w addr u s f).1 (e ▸ hf)
    · exact .misalignedStore store_eq hmisaligned
    · exact .absentStore store_eq hpermitted habsent

/-! ## The form that a target or an access gives away -/

/-- A jump or taken branch is `jumpTo` its target. -/
theorem exec_of_transfer {i : Instr} {s : State} {target : Word} (htransfers : isJump i ∨ takesBranch i s)
    (htarget : transferTarget i s = some target) : ∃ u, exec i s = jumpTo target u := by
  obtain (⟨rd, off, rfl⟩ | ⟨rd, rs1, imm, rfl⟩) | htaken := htransfers
  · cases htarget
    exact ⟨_, rfl⟩
  · cases htarget
    exact ⟨_, rfl⟩
  · cases exec_form i s with
    | branch taken off e taken_iff target_eq =>
      obtain rfl : s.pc + immB off = target := Option.some.inj (target_eq.symm.trans htarget)
      exact ⟨s, by rw [e, taken_iff.2 htaken, branchIf, if_pos rfl]⟩
    | jump rd target' e is_jump target_eq =>
      obtain rfl : target' = target := Option.some.inj (target_eq.symm.trans htarget)
      exact ⟨_, e⟩
    | compute _ _ _ target_eq | load _ _ _ _ _ target_eq | store _ _ _ _ _ target_eq => simp [target_eq] at htarget

/-- What has a load access is `loadWith` at that address and width. -/
theorem exec_of_loadAccess {i : Instr} {s : State} {n : Nat} {addr : Word} (h : loadAccess i s = some (n, addr)) :
    ∃ w rd v, widthBytes w = n ∧ exec i s = loadWith w addr rd v s := by
  cases exec_form i s with
  | load w addr' rd v e _ load_eq =>
    obtain ⟨hwidth, rfl⟩ : widthBytes w = n ∧ addr' = addr := by simpa [load_eq] using h
    exact ⟨w, rd, v, hwidth, e⟩
  | compute _ _ _ _ load_eq | branch _ _ _ _ _ load_eq | jump _ _ _ _ _ load_eq | store _ _ _ _ _ _ load_eq =>
    simp [load_eq] at h

/-- What has a store access is `storeWith` at that address and width. -/
theorem exec_of_storeAccess {i : Instr} {s : State} {n : Nat} {addr : Word} (h : storeAccess i s = some (n, addr)) :
    ∃ w u, widthBytes w = n ∧ exec i s = storeWith w addr u s := by
  cases exec_form i s with
  | store w addr' u e _ _ _ store_eq =>
    obtain ⟨hwidth, rfl⟩ : widthBytes w = n ∧ addr' = addr := by simpa [store_eq] using h
    exact ⟨w, u, hwidth, e⟩
  | compute _ _ _ _ _ store_eq | branch _ _ _ _ _ _ store_eq | jump _ _ _ _ _ _ store_eq | load _ _ _ _ _ _ _ store_eq =>
    simp [store_eq] at h

/-- An instruction raises every listed fault. -/
theorem exec_fault_of_raises {i : Instr} {s : State} {f : Fault} (h : Raises i s f) : exec i s = .fault f := by
  cases h with
  | misalignedFetch transfers target_eq misaligned =>
    obtain ⟨u, e⟩ := exec_of_transfer transfers target_eq
    exact e.trans ((jumpTo_fault_iff _ u _).2 ⟨misaligned, rfl⟩)
  | misalignedLoad access misaligned =>
    obtain ⟨w, rd, v, rfl, e⟩ := exec_of_loadAccess access
    exact e.trans ((loadWith_fault_iff w _ rd v s _).2 (.inl ⟨misaligned, rfl⟩))
  | misalignedStore access misaligned =>
    obtain ⟨w, u, rfl, e⟩ := exec_of_storeAccess access
    exact e.trans ((storeWith_fault_iff w _ u s _).2 (.inl ⟨misaligned, rfl⟩))
  | absentLoad access permitted absent =>
    obtain ⟨w, rd, v, rfl, e⟩ := exec_of_loadAccess access
    exact e.trans ((loadWith_fault_iff w _ rd v s _).2 (.inr ⟨permitted, absent, rfl⟩))
  | absentStore access permitted absent =>
    obtain ⟨w, u, rfl, e⟩ := exec_of_storeAccess access
    exact e.trans ((storeWith_fault_iff w _ u s _).2 (.inr ⟨permitted, absent, rfl⟩))

/-- `Raises` is exactly what `exec` does. -/
theorem exec_fault_iff (i : Instr) (s : State) (f : Fault) : exec i s = .fault f ↔ Raises i s f :=
  ⟨raises_of_exec_fault, exec_fault_of_raises⟩

/-! ## The statements -/

/-- An access is kept back where misaligned accesses fault and its address is no multiple of its width (rule R46). -/
theorem not_permitted_iff (s : State) (addr : Word) (n : Nat) :
    ¬ Permitted s addr n ↔ s.cfg.misalignedData = .fault ∧ addr.toNat % n ≠ 0 := by
  unfold Permitted
  cases s.cfg.misalignedData <;> simp

/-- Settles O51, by the one case of `Raises` with this fault. -/
theorem misalignedFetchExactly : Obligations.MisalignedFetchExactly := by
  intro i s target
  rw [exec_fault_iff]
  constructor
  · intro h
    cases h with
    | misalignedFetch transfers target_eq misaligned => exact ⟨transfers, target_eq, misaligned⟩
  · rintro ⟨transfers, target_eq, misaligned⟩
    exact .misalignedFetch transfers target_eq misaligned

/-- Settles O52, by the one case of `Raises` with this fault. -/
theorem misalignedLoadExactly : Obligations.MisalignedLoadExactly := by
  intro i s addr
  simp only [exec_fault_iff, ← not_permitted_iff]
  constructor
  · intro h
    cases h with
    | misalignedLoad access misaligned => exact ⟨_, access, misaligned⟩
  · rintro ⟨n, access, misaligned⟩
    exact .misalignedLoad access misaligned

/-- Settles O53, by the one case of `Raises` with this fault. -/
theorem misalignedStoreExactly : Obligations.MisalignedStoreExactly := by
  intro i s addr
  simp only [exec_fault_iff, ← not_permitted_iff]
  constructor
  · intro h
    cases h with
    | misalignedStore access misaligned => exact ⟨_, access, misaligned⟩
  · rintro ⟨n, access, misaligned⟩
    exact .misalignedStore access misaligned

/-- No instruction raises the fault of a fetch, so a step from an aligned pc raises it for its own fetch alone. -/
theorem step_fetch_fault_iff {s : State} (hpc : s.pc.toNat % 4 = 0) (addr : Word) :
    step s = .fault (.accessFault .fetch addr) ↔ admits s.cfg s.pc 4 .fetch = false ∧ s.pc = addr := by
  cases ha : admits s.cfg s.pc 4 .fetch with
  | false => simp [step_of_not_admitted hpc ha]
  | true =>
    cases hd : decode s.cfg (wordAt s s.pc) with
    | error e => simp [step_of_decode_error hpc ha hd]
    | ok i =>
      have hnot : ¬ Raises i s (.accessFault .fetch addr) := nofun
      simp [step_of_decode_ok hpc ha hd, exec_fault_iff, hnot]

/-- Settles O54: the two cases of `Raises` with this fault, and the front of a step. -/
theorem accessFaultExactly : Obligations.AccessFaultExactly := by
  constructor
  · intro i s kind addr
    rw [exec_fault_iff]
    constructor
    · intro h
      cases h with
      | absentLoad access permitted absent => exact ⟨_, permitted, absent, .inl ⟨rfl, access⟩⟩
      | absentStore access permitted absent => exact ⟨_, permitted, absent, .inr ⟨rfl, access⟩⟩
    · rintro ⟨n, permitted, absent, ⟨rfl, access⟩ | ⟨rfl, access⟩⟩
      · exact .absentLoad access permitted absent
      · exact .absentStore access permitted absent
  · intro s hpc
    simp only [step_fetch_fault_iff hpc]
    exact ⟨by simp, fun addr h => h.2.symm⟩

end Sys2Proof
end

section
/-! PROOFS. The state after a reset (70_reset_and_hazards.md rules R240 to R243): the invariant holds, and the program
lies where the launch says. -/

namespace Sys2Proof

open Sys2Proof.Machine Sys2Proof.Claims

/-! ## The invariant (rule R240) -/

/-- `RESET_PC` of a well-formed configuration is a multiple of 4. -/
theorem resetPc_aligned {c : Config} (h : c.wellFormed = true) : isMultipleOf4 c.resetPc = true := by
  simp only [Config.wellFormed, Bool.and_eq_true] at h
  obtain ⟨⟨⟨-, hreset⟩, -⟩, -⟩ := h
  exact hreset

/-- Where register 0 is the constant, its entry is zero after a reset. -/
theorem zero_entry_resetOf {l : Launch} (hx : l.cfg.x0Zero = true) : (State.resetOf l).regs[0] = 0#32 := by
  simp [State.resetOf, hx]

theorem invariant_resetOf {l : Launch} (h : l.wellFormed = true) : Invariant (State.resetOf l) := by
  obtain ⟨hcfg, -, -, -, hdata⟩ := (Launch.wellFormed_iff l).1 h
  exact ⟨resetPc_aligned hcfg, zero_entry_resetOf, State.wf_resetOf hdata, hcfg⟩

/-- The launch of `State.reset`, with no program, is well formed. -/
theorem wellFormed_initial : Launch.initial.wellFormed = true := by decide

/-- Settles O56: `State.reset` is the reset of a well-formed launch too. -/
theorem resetMeetsTheInvariant : Obligations.ResetMeetsTheInvariant := by
  refine ⟨fun l h => ?_, invariant_resetOf wellFormed_initial⟩
  have hinv := invariant_resetOf h
  exact ⟨State.resetOf_pc l, (isMultipleOf4_iff _).1 hinv.pc_aligned, hinv⟩

/-! ## Where the program lies (rule R243) -/

/-- A word is its four bytes put together again, in either order. -/
theorem wordOfBytes_byteOfWord (order : ByteOrder) (w : Word) :
    wordOfBytes order (byteOfWord order w 0) (byteOfWord order w 1) (byteOfWord order w 2) (byteOfWord order w 3) =
      w := by
  have hjoin : w.extractLsb' 24 8 ++ w.extractLsb' 16 8 ++ w.extractLsb' 8 8 ++ w.extractLsb' 0 8 = w := by
    rw [BitVec.extractLsb'_append_extractLsb'_eq_extractLsb' (by omega),
      BitVec.extractLsb'_append_extractLsb'_eq_extractLsb' (by omega),
      BitVec.extractLsb'_append_extractLsb'_eq_extractLsb' (by omega)]
    exact BitVec.extractLsb'_eq_self
  cases order with
  | little => exact hjoin
  | big => exact hjoin

/-- Byte `j` of word `k` of a part. -/
theorem program_address_add (p : ProgramPart) (k j : Nat) :
    p.base + BitVec.ofNat 32 (4 * k) + BitVec.ofNat 32 j = p.base + BitVec.ofNat 32 (4 * k + j) := by
  rw [BitVec.add_assoc, BitVec.ofNat_add]

section ProgramWord

variable {l : Launch} (hl : l.wellFormed = true) {p : ProgramPart} (hp : p ∈ l.program) {k : Nat}
  (hk : k < p.words.length)
include hl hp hk

/-- No part of a program wraps around the address space. -/
theorem toNat_program_address {j : Nat} (hj : j < 4) :
    (p.base + BitVec.ofNat 32 (4 * k + j)).toNat = p.base.toNat + (4 * k + j) := by
  obtain ⟨-, -, hparts, -, -⟩ := (Launch.wellFormed_iff l).1 hl
  obtain ⟨-, hfits⟩ := hparts p hp
  rw [BitVec.toNat_add, BitVec.toNat_ofNat]
  omega

theorem program_address_aligned : (p.base + BitVec.ofNat 32 (4 * k)).toNat % 4 = 0 := by
  obtain ⟨-, -, hparts, -, -⟩ := (Launch.wellFormed_iff l).1 hl
  obtain ⟨haligned, -⟩ := hparts p hp
  have haddr := toNat_program_address hl hp hk (j := 0) (by decide)
  rw [Nat.add_zero] at haddr
  omega

theorem program_address_in_text {j : Nat} (hj : j < 4) :
    inRegions l.cfg.text (p.base + BitVec.ofNat 32 (4 * k + j)).toNat = true := by
  obtain ⟨-, htext, -, -, -⟩ := (Launch.wellFormed_iff l).1 hl
  have hmem : p.region ∈ l.cfg.text := htext ▸ List.mem_map_of_mem hp
  have haddr := toNat_program_address hl hp hk hj
  refine (inRegions_iff _ _).2 ⟨p.region, hmem, ?_⟩
  simp only [ProgramPart.region]
  omega

theorem program_word_fetchable : admits l.cfg (p.base + BitVec.ofNat 32 (4 * k)) 4 .fetch = true := by
  refine (admits_iff _ _ _ _).2 fun j hj => ?_
  rw [program_address_add]
  exact admitByte_fetch_of_text (program_address_in_text hl hp hk hj)

theorem program_word_reads_back :
    wordAt (State.resetOf l) (p.base + BitVec.ofNat 32 (4 * k)) = p.words[k] := by
  have hbyte {j : Nat} (hj : j < 4) : (State.resetOf l).byteAt (p.base + BitVec.ofNat 32 (4 * k) + BitVec.ofNat 32 j) =
      byteOfWord l.cfg.byteOrder p.words[k] j := by
    rw [program_address_add]
    exact State.byteAt_resetOf_program hl hp hk hj
  have hfirst := hbyte (j := 0) (by decide)
  rw [BitVec.add_zero] at hfirst
  rw [wordAt_eq_read32, State.read32, hfirst, hbyte (j := 1) (by decide), hbyte (j := 2) (by decide),
    hbyte (j := 3) (by decide), State.resetOf_cfg, wordOfBytes_byteOfWord]

end ProgramWord

/-- Settles O59: the four facts about a word of the program, what `TEXT` admits, and what the reset leaves as the launch
fixes it. -/
theorem launchPlacesTheProgram : Obligations.LaunchPlacesTheProgram := by
  intro l hl
  refine ⟨fun p hp k w hw => ?program, fun a ha => ?text, fun a ha => State.byteAt_resetOf_off_text hl ha,
    State.readReg_resetOf l⟩
  case program =>
    obtain ⟨hk, rfl⟩ := List.getElem?_eq_some_iff.1 hw
    exact ⟨program_address_aligned hl hp hk, fun j hj => program_address_in_text hl hp hk hj,
      program_word_fetchable hl hp hk, program_word_reads_back hl hp hk⟩
  case text =>
    have hfetch := admitByte_fetch_of_text ha
    exact ⟨by rwa [admits_one], admits_store_of_fetch_byte (k := 0) (by decide) (by rwa [BitVec.add_zero])⟩

end Sys2Proof
end

section
/-! PROOFS. Runs as a launch delimits them (70_reset_and_hazards.md rules R244, R245): one equation of a run for each
case, and what an answer of a run says. -/

namespace Sys2Proof

open Sys2Proof.Machine

/-! ## A run, one equation per case -/

/-- `HALT_PC` is tested before the fetch, whatever the fuel. -/
theorem runToHalt_of_halted {s : State} (hs : s.pc = s.cfg.haltPc) (fuel : Nat) : runToHalt fuel s = .final s := by
  unfold runToHalt
  simp [State.isFinal, hs]

section NotHalted

variable {s : State} (hs : s.pc ≠ s.cfg.haltPc)
include hs

theorem runToHalt_zero : runToHalt 0 s = .outOfFuel s := by
  unfold runToHalt
  simp [State.isFinal, hs]

theorem runToHalt_of_next {t : State} (ht : step s = .next t) (fuel : Nat) :
    runToHalt (fuel + 1) s = runToHalt fuel t := by
  conv_lhs => unfold runToHalt
  simp [State.isFinal, hs, ht]

theorem runToHalt_of_fault {f : Fault} (hf : step s = .fault f) (fuel : Nat) :
    runToHalt (fuel + 1) s = .faulted f s := by
  unfold runToHalt
  simp [State.isFinal, hs, hf]

theorem runToHalt_of_refused {r : Refusal} (hr : step s = .refused r) (fuel : Nat) :
    runToHalt (fuel + 1) s = .refused r s := by
  unfold runToHalt
  simp [State.isFinal, hs, hr]

end NotHalted

/-! ## What an answer says -/

/-- What is true of the state in a run's answer: a final state is at `HALT_PC`; any other is not, and where the run
stopped, the stop is that of the state's own step (rule R245, 60_exceptions.md rule R200). -/
def Machine.RunOutcome.Justified : RunOutcome → Prop
  | .final t => t.pc = t.cfg.haltPc
  | .faulted f t => t.pc ≠ t.cfg.haltPc ∧ step t = .fault f
  | .refused r t => t.pc ≠ t.cfg.haltPc ∧ step t = .refused r
  | .outOfFuel t => t.pc ≠ t.cfg.haltPc

theorem runToHalt_justified (fuel : Nat) (s : State) : (runToHalt fuel s).Justified := by
  induction fuel generalizing s with
  | zero =>
    by_cases hs : s.pc = s.cfg.haltPc
    · rwa [runToHalt_of_halted hs]
    · rwa [runToHalt_zero hs]
  | succ fuel ih =>
    by_cases hs : s.pc = s.cfg.haltPc
    · rwa [runToHalt_of_halted hs]
    · cases hstep : step s with
      | next t => exact runToHalt_of_next hs hstep fuel ▸ ih t
      | fault f => exact runToHalt_of_fault hs hstep fuel ▸ ⟨hs, hstep⟩
      | refused r => exact runToHalt_of_refused hs hstep fuel ▸ ⟨hs, hstep⟩

theorem justified_of_runToHalt {fuel : Nat} {s : State} {o : RunOutcome} (h : runToHalt fuel s = o) : o.Justified :=
  h ▸ runToHalt_justified fuel s

/-- An answer other than `outOfFuel` is the answer with more fuel too. -/
theorem runToHalt_add {fuel : Nat} {s : State} {o : RunOutcome} (h : runToHalt fuel s = o)
    (ho : ∀ t, o ≠ .outOfFuel t) (more : Nat) : runToHalt (fuel + more) s = o := by
  induction fuel generalizing s with
  | zero =>
    by_cases hs : s.pc = s.cfg.haltPc
    · rwa [runToHalt_of_halted hs] at h ⊢
    · rw [runToHalt_zero hs] at h
      exact absurd h.symm (ho s)
  | succ fuel ih =>
    rw [Nat.add_right_comm]
    by_cases hs : s.pc = s.cfg.haltPc
    · rwa [runToHalt_of_halted hs] at h ⊢
    · cases hstep : step s with
      | next t =>
        rw [runToHalt_of_next hs hstep] at h ⊢
        exact ih h
      | fault f => rwa [runToHalt_of_fault hs hstep] at h ⊢
      | refused r => rwa [runToHalt_of_refused hs hstep] at h ⊢

/-- Settles O58: what each answer says of its state, and that an answer is no matter of the fuel. -/
theorem runsEndAtHaltPcOrAtAFault : Obligations.RunsEndAtHaltPcOrAtAFault := by
  refine ⟨?halted, ?final, ?faulted, ?finalMore, ?faultedMore⟩
  case halted => exact fun fuel s hs => runToHalt_of_halted hs fuel
  case final => exact fun fuel s t h => justified_of_runToHalt h
  case faulted => exact fun fuel s t f h => justified_of_runToHalt h
  case finalMore => exact fun fuel more s t h => runToHalt_add h nofun more
  case faultedMore => exact fun fuel more s t f h => runToHalt_add h nofun more

end Sys2Proof
end
